-- ==== Sys2Proof/Word.lean ====
section
/-! DEFINITION. The two word types of the block (rule R7): every quantity is an unsigned byte, but for the
16-bit checksum value. Arithmetic on both is `BitVec`'s own, which wraps modulo the width as `+_8` and `-_8` do. -/

namespace Sys2Proof

/-- A byte: 8 bits, unsigned (rule R7). -/
abbrev Byte := BitVec 8

/-- The 16-bit checksum value (rule R4, `CK_BITS`). -/
abbrev Word16 := BitVec 16

end Sys2Proof
end

