-- ==== Sys2Proof/Config.lean ====
section
/-! DEFINITION. The parameters of rules R4 and R5, and the one open parameter, `BUF_RESET`. -/

namespace Sys2Proof.Config

/-- `SYNC_BYTE` (R4): the value of each of the two sync bytes. -/
def syncByte : Byte := 0xFF

/-- `MIN_VALID_LEN` (R4): the smallest `msg_len` that has room for the two checksum bytes. -/
def minValidLen : Byte := 2

/-- `MAX_APP_LEN` (R4): the largest application payload. -/
def maxAppLen : Nat := 253

/-- `BUF_DEPTH` (R5): the payload buffer has the addresses 0 to 254. -/
def bufDepth : Nat := 255

/-- `BUF_RESET` (R5, R23, R31): the byte at a buffer address that no step has written since power-on.
A FREE VALUE: it has no body, so nothing can be proved of it, and a claim holds whatever it is (log entry 1). -/
opaque bufReset : Nat → Byte

end Sys2Proof.Config
end

