-- ==== Sys2Proof/Syntax.lean ====
section
/-! DEFINITION. What selects an action of the block, and the action: the five values of `state` (R10), the sampled
input ports of a cycle (R21), the selection of rule R55, and `Instr` with one constructor per row of
`opcode_table.json` (R55, R56). -/

namespace Sys2Proof

/-- The values of the `state` register (R10). An enumeration, as R53 and R58 ask: codes 5 to 7 cannot be written. -/
inductive SyncState where
  | idle
  | start1
  | start2
  | haveId
  | haveLen
deriving DecidableEq, Repr

/-- The input ports as one rising clock edge samples them (R21, R92). -/
structure CycleIn where
  rst     : Bool
  inValid : Bool
  inData  : Byte
deriving DecidableEq, Repr

/-- A cycle in which the upstream presents the byte `c` and no reset is applied (R21). -/
def CycleIn.byte (c : Byte) : CycleIn := { rst := false, inValid := true, inData := c }

/-- An idle cycle: no reset, no byte (R93). `in_data` is ignored then (R21). -/
def CycleIn.idle : CycleIn := { rst := false, inValid := false, inData := 0 }

/-- A reset cycle (R129). -/
def CycleIn.reset : CycleIn := { rst := true, inValid := false, inData := 0 }

/-- Everything that selects the action of a cycle: the sampled ports (R92) and, for an accepted byte, `state` and
`bytes_needed` (R55). -/
structure Selection where
  ports       : CycleIn
  state       : SyncState
  bytesNeeded : Byte
deriving DecidableEq, Repr

/-- One constructor per row of `opcode_table.json`. The operand `c` is the accepted byte (R8). -/
inductive Instr where
  | idleSync    (c : Byte)
  | idleSkip    (c : Byte)
  | start1Sync  (c : Byte)
  | start1Fall  (c : Byte)
  | start2Id    (c : Byte)
  | haveidLen   (c : Byte)
  | haveidLen0  (c : Byte)
  | havelenData (c : Byte)
  | havelenCklo (c : Byte)
  | havelenLast (c : Byte)
  | reset
  | nop
  | ckClear
  | ckStep      (c : Byte)
  | ckValue
deriving DecidableEq, Repr

/-- The row's mnemonic in `opcode_table.json` (R56). -/
def Instr.mnemonic : Instr → String
  | .idleSync _    => "IDLE.SYNC"
  | .idleSkip _    => "IDLE.SKIP"
  | .start1Sync _  => "START1.SYNC"
  | .start1Fall _  => "START1.FALL"
  | .start2Id _    => "START2.ID"
  | .haveidLen _   => "HAVEID.LEN"
  | .haveidLen0 _  => "HAVEID.LEN0"
  | .havelenData _ => "HAVELEN.DATA"
  | .havelenCklo _ => "HAVELEN.CKLO"
  | .havelenLast _ => "HAVELEN.LAST"
  | .reset         => "RESET"
  | .nop           => "NOP"
  | .ckClear       => "CK.CLEAR"
  | .ckStep _      => "CK.STEP"
  | .ckValue       => "CK.VALUE"

/-- The checksum unit's micro-operations, which the stream never selects (R56). -/
def Instr.isMicroOp : Instr → Bool
  | .ckClear | .ckStep _ | .ckValue => true
  | .idleSync _ | .idleSkip _ | .start1Sync _ | .start1Fall _ | .start2Id _ | .haveidLen _ | .haveidLen0 _
  | .havelenData _ | .havelenCklo _ | .havelenLast _ | .reset | .nop => false

end Sys2Proof
end

