-- ==== Sys2Proof/WellFormed.lean ====
section
/-! DEFINITION. Well-formed instructions: the condition on the accepted byte of the table of rule R55. -/

namespace Sys2Proof

/-- The "condition on `c`" column of rule R55; a row without one accepts every byte. -/
def Instr.wellFormed : Instr → Bool
  | .idleSync c    => c == Config.syncByte
  | .idleSkip c    => c != Config.syncByte
  | .start1Sync c  => c == Config.syncByte
  | .start1Fall c  => c != Config.syncByte
  | .haveidLen c   => c != 0
  | .haveidLen0 c  => c == 0
  | .start2Id _    => true
  | .havelenData _ => true
  | .havelenCklo _ => true
  | .havelenLast _ => true
  | .reset         => true
  | .nop           => true
  | .ckClear       => true
  | .ckStep _      => true
  | .ckValue       => true

end Sys2Proof
end

