-- ==== Sys2Proof/Decode.lean ====
section
/-! DEFINITION. Decoding: rule R55 (selection of a transition), rule R92 (reset and idle cycles), the state codes of
rule R53, the machine-readable table, and the selection word that writes a selection down as bytes (log entry 4). -/

namespace Sys2Proof

/-- Why bytes, or a selection, stand for no instruction. -/
inductive DecodeError where
  /-- The bytes are not four: no selection word. -/
  | notASelectionWord
  /-- A state code 5, 6 or 7, or a set bit above the code (R53, R58: reserved, never held). -/
  | reservedStateCode
  /-- A set bit of the port byte other than its two lowest. -/
  | reservedPortBits
  /-- HaveLen with `bytes_needed = 0`: R55 has no row for it and calls it unreachable. -/
  | noTransition
deriving DecidableEq, Repr

/-- R55: the transition that an accepted byte `c` selects. -/
def decodeByte (q : SyncState) (bytesNeeded c : Byte) : Except DecodeError Instr :=
  match q with
  | .idle    => if c = Config.syncByte then .ok (.idleSync c) else .ok (.idleSkip c)
  | .start1  => if c = Config.syncByte then .ok (.start1Sync c) else .ok (.start1Fall c)
  | .start2  => .ok (.start2Id c)
  | .haveId  => if c = 0 then .ok (.haveidLen0 c) else .ok (.haveidLen c)
  | .haveLen =>
    if 2 < bytesNeeded then .ok (.havelenData c)
    else if bytesNeeded = 2 then .ok (.havelenCklo c)
    else if bytesNeeded = 1 then .ok (.havelenLast c)
    else .error .noTransition

/-- R92: `rst` wins over `in_valid`; without either the cycle is idle; otherwise the byte selects (R55). -/
def decode (p : Selection) : Except DecodeError Instr :=
  if p.ports.rst then .ok .reset
  else if p.ports.inValid then decodeByte p.state p.bytesNeeded p.ports.inData
  else .ok .nop

/-! ## The state codes of rule R53 -/

/-- R53: the code of a state. -/
def SyncState.code : SyncState → Byte
  | .idle    => 0
  | .start1  => 1
  | .start2  => 2
  | .haveId  => 3
  | .haveLen => 4

/-- R53: the state of a code; codes above 4 are reserved. -/
def stateOfCode (code : Byte) : Option SyncState :=
  if code = 0 then some .idle
  else if code = 1 then some .start1
  else if code = 2 then some .start2
  else if code = 3 then some .haveId
  else if code = 4 then some .haveLen
  else none

/-! ## The machine-readable table (R55, `opcode_table.json`) -/

/-- The `register_guard` of a row. -/
inductive Guard where
  | always
  | above2
  | equals2
  | equals1
deriving DecidableEq, Repr

/-- One row of the table that the stream can select. -/
structure TableRow where
  mnemonic  : String
  state     : SyncState
  matchBits : Byte
  mask      : Byte
  negate    : Bool
  guard     : Guard
deriving DecidableEq, Repr

/-- Whether a guard holds of `bytes_needed`. -/
def Guard.holds (g : Guard) (bytesNeeded : Byte) : Bool :=
  match g with
  | .always  => true
  | .above2  => decide (2 < bytesNeeded)
  | .equals2 => bytesNeeded == 2
  | .equals1 => bytesNeeded == 1

/-- R55: "a row is selected when the state is the row's, the guard holds, and `((c & mask) == match)` differs from
`negate`". -/
def TableRow.selected (r : TableRow) (q : SyncState) (bytesNeeded c : Byte) : Bool :=
  r.state == q && r.guard.holds bytesNeeded && (((c &&& r.mask) == r.matchBits) != r.negate)

/-- The ten rows of `opcode_table.json` that the stream selects, in its order. -/
def transitionTable : List TableRow :=
  [ ⟨"IDLE.SYNC", .idle, 0xFF, 0xFF, false, .always⟩,
    ⟨"IDLE.SKIP", .idle, 0xFF, 0xFF, true, .always⟩,
    ⟨"START1.SYNC", .start1, 0xFF, 0xFF, false, .always⟩,
    ⟨"START1.FALL", .start1, 0xFF, 0xFF, true, .always⟩,
    ⟨"START2.ID", .start2, 0x00, 0x00, false, .always⟩,
    ⟨"HAVEID.LEN", .haveId, 0x00, 0xFF, true, .always⟩,
    ⟨"HAVEID.LEN0", .haveId, 0x00, 0xFF, false, .always⟩,
    ⟨"HAVELEN.DATA", .haveLen, 0x00, 0x00, false, .above2⟩,
    ⟨"HAVELEN.CKLO", .haveLen, 0x00, 0x00, false, .equals2⟩,
    ⟨"HAVELEN.LAST", .haveLen, 0x00, 0x00, false, .equals1⟩ ]

/-! ## The selection word

Four bytes, lowest first: `in_data`; the state code of R53; `bytes_needed`; the ports, bit 0 `rst` and bit 1 set in a
cycle WITHOUT a byte. The first byte is the byte the table's `match` and `mask` speak of, and a word whose other bytes
are 0 is that byte accepted in Idle. The layout is the model's own (log entry 4). -/

/-- The selection that four bytes write down, or why they write none. -/
def selectionOfBytes (bytes : List Byte) : Except DecodeError Selection :=
  match bytes with
  | [c, code, bytesNeeded, ports] =>
    match stateOfCode code with
    | none => .error .reservedStateCode
    | some q =>
      if ports.toNat < 4 then
        .ok { ports := { rst := ports.getLsbD 0, inValid := !ports.getLsbD 1, inData := c }
              state := q
              bytesNeeded := bytesNeeded }
      else .error .reservedPortBits
  | _ => .error .notASelectionWord

/-- Decoding of bytes, total: the instruction of a selection word. -/
def decodeBytes (bytes : List Byte) : Except DecodeError Instr :=
  match selectionOfBytes bytes with
  | .ok p    => decode p
  | .error e => .error e

/-- The selection word of an instruction, from the tables of R53, R55 and R92: outside HaveLen `bytes_needed` is 1
(R13), in HaveLen it is the smallest value the row's guard accepts. The micro-operations have no word: the stream does
not select them (R56). -/
def encode (i : Instr) : Option (List Byte) :=
  match i with
  | .idleSync c    => some [c, 0, 1, 0]
  | .idleSkip c    => some [c, 0, 1, 0]
  | .start1Sync c  => some [c, 1, 1, 0]
  | .start1Fall c  => some [c, 1, 1, 0]
  | .start2Id c    => some [c, 2, 1, 0]
  | .haveidLen c   => some [c, 3, 1, 0]
  | .haveidLen0 c  => some [c, 3, 1, 0]
  | .havelenData c => some [c, 4, 3, 0]
  | .havelenCklo c => some [c, 4, 2, 0]
  | .havelenLast c => some [c, 4, 1, 0]
  | .reset         => some [0, 0, 1, 1]
  | .nop           => some [0, 0, 1, 2]
  | .ckClear       => none
  | .ckStep _      => none
  | .ckValue       => none

/-- The bytes of a table word: its lowest `nbits` bits, lowest byte first, and 0 above them; none that needs more than
four bytes. -/
def tableWordBytes (nbits w : Nat) : List Byte :=
  let v := w % 2 ^ nbits
  if v < 2 ^ 32 then
    [BitVec.ofNat 8 v, BitVec.ofNat 8 (v / 2 ^ 8), BitVec.ofNat 8 (v / 2 ^ 16), BitVec.ofNat 8 (v / 2 ^ 24)]
  else []

/-- The instruction the decoder reads from a word whose bits are numbered as `opcode_table.json` numbers them. -/
def decodeTableWord (nbits w : Nat) : Option Instr :=
  match decodeBytes (tableWordBytes nbits w) with
  | .ok i    => some i
  | .error _ => none

end Sys2Proof
end

