-- ==== Sys2Proof/Machine/State.lean ====
section
/-! DEFINITION. The state of the block: the registers of rules R10 to R15, the payload buffer of rule R16, and the
queue of input-port samples, which is the model's own (log entry 3). Rule R17: the registers are all the state. -/

namespace Sys2Proof.Machine

/-- The values of `frame_status` (R15, R54): an enumeration in which code 3 cannot be written (R58). -/
inductive FrameStatus where
  | ok
  | ckErr
  | lenErr
deriving DecidableEq, Repr

/-- The payload buffer `buf` (R16, R29): the cells written since power-on, addresses strictly rising. An address that is
not listed has not been written since power-on and reads as `BUF_RESET` there (R31; log entries 1 and 2). -/
abbrev Memory := List Host.Cell

/-- The block. -/
structure State where
  /-- `state`, the block's program counter (R10). -/
  state       : SyncState
  /-- `msg_id` (R11). -/
  msgId       : Byte
  /-- `msg_len` (R12). -/
  msgLen      : Byte
  /-- `bytes_needed` (R13). -/
  bytesNeeded : Byte
  /-- `ck_a`, the accumulator `a` of the checksum unit (R14). -/
  ckA         : Byte
  /-- `ck_b`, the accumulator `b` (R14). -/
  ckB         : Byte
  /-- `frame_done`, the one-cycle pulse (R15). -/
  frameDone   : Bool
  /-- `frame_status`, held (R15). -/
  frameStatus : FrameStatus
  /-- `buf` (R16). -/
  buf         : Memory
  /-- THE MODEL'S OWN, no register of the block: what the input ports will show in the coming cycles, the next one
  first. When it is empty every further cycle is idle (R27, R92; log entry 3). -/
  inputs      : List CycleIn
deriving DecidableEq, Repr

/-- What stops the machine. -/
inductive Fault where
  /-- Raised by a buffer access at address 255, which does not exist (R29). Safe: no state that meets the invariants of
  rule R24 makes such an access, and the spec gives none an effect. -/
  | noSuchBufferAddress
deriving DecidableEq, Repr

/-- What the model refuses. -/
inductive Refusal where
  /-- Raised by `exec` for an instruction that has no meaning yet. Safe. No arm of this model raises it. -/
  | notModelled (mnemonic : String)
  /-- Raised by `step` for a byte in HaveLen with `bytes_needed = 0`, for which R55 has no transition and which R24
  says no run reaches. Safe. -/
  | noTransition
deriving DecidableEq, Repr

/-- The state after the first reset cycle, with nothing presented yet (R23, R129). The buffer lists nothing: reset does
not write it, and every byte of it reads as `BUF_RESET`. -/
def State.reset : State :=
  { state := .idle
    msgId := 0
    msgLen := 0
    bytesNeeded := 1
    ckA := 0
    ckB := 0
    frameDone := false
    frameStatus := .ok
    buf := []
    inputs := [] }

end Sys2Proof.Machine
end

