-- ==== Sys2Proof/Machine/Operands.lean ====
section
/-! DEFINITION. The operand forms: the values a step computes from the frame's bytes and the registers (rule R61), and
the arithmetic of the checksum unit (rules R65 and R66). All of it is unsigned (R96). -/

namespace Sys2Proof.Machine

/-- `LE16(lo, hi) = {hi, lo}` (R7): `lo` is the byte that comes first on the wire (R33). -/
def le16 (lo hi : Byte) : Word16 := hi ++ lo

/-- `CkValue(a, b) = {a, b}` (R66): `a` is the high byte. -/
def ckValueOf (a b : Byte) : Word16 := a ++ b

/-- `CkStep((a, b), c)` (R65): `b` takes the NEW `a`; both carries are discarded. -/
def ckStepOf (acc : Byte × Byte) (c : Byte) : Byte × Byte :=
  (acc.1 + c, acc.2 + (acc.1 + c))

/-- The accumulators after feeding a sequence of bytes in order (the loop of R67). -/
def ckFeed (acc : Byte × Byte) (bytes : List Byte) : Byte × Byte :=
  bytes.foldl ckStepOf acc

/-- `idx = msg_len - bytes_needed` (R61, R26): the payload index of the next payload byte. -/
def State.payloadIndex (s : State) : Byte := s.msgLen - s.bytesNeeded

/-- `app_len` (R61): the length of the application payload, 0 for a frame too short for a checksum. -/
def State.appLen (s : State) : Byte :=
  if Config.minValidLen ≤ s.msgLen then s.msgLen - 2 else 0

/-- `calc_ck` (R61): the checksum computed so far. -/
def State.calcCk (s : State) : Word16 := ckValueOf s.ckA s.ckB

end Sys2Proof.Machine
end

