-- ==== Sys2Proof/Machine/Flags.lean ====
section
/-! DEFINITION. The two flag registers `frame_done` and `frame_status` (rule R15): every computation of them. -/

namespace Sys2Proof.Machine

/-- R54: the status codes. -/
def FrameStatus.code : FrameStatus → BitVec 2
  | .ok     => 0
  | .ckErr  => 1
  | .lenErr => 2

/-- The two conditions the block detects (R109). -/
inductive Condition where
  /-- `ChecksumMismatch` (R110). -/
  | checksumMismatch
  /-- `LengthError` (R111). -/
  | lengthError
deriving DecidableEq, Repr

/-- R109: the status a condition is recorded with. -/
def Condition.status : Condition → FrameStatus
  | .checksumMismatch => .ckErr
  | .lengthError      => .lenErr

/-- `frame_done <- 0`: every step that completes no frame, and every idle cycle (R15, R93). -/
def State.clearDone (s : State) : State := { s with frameDone := false }

/-- The report of a completed frame (R15, R115): `frame_done <- 1` and `frame_status <-` the frame's status. -/
def State.report (s : State) (status : FrameStatus) : State :=
  { s with frameDone := true, frameStatus := status }

end Sys2Proof.Machine
end

