-- ==== Sys2Proof/Machine/Ops.lean ====
section
/-! DEFINITION. The named operations: the payload buffer (rules R29 to R31), the register updates the transitions
share, raising a condition and returning to Idle (rules R115 and R118), and taking the next sample of the input ports
(rule R92). -/

namespace Sys2Proof.Machine

/-! ## The payload buffer -/

/-- The byte written last at an address, or none if nothing has been written there since power-on. -/
def Memory.cell? (m : Memory) (addr : Nat) : Option Byte :=
  match m with
  | [] => none
  | (b, v) :: rest => if addr = b then some v else Memory.cell? rest addr

/-- The cells with `v` written at `addr`, kept in rising order. -/
def Memory.put (m : Memory) (addr : Nat) (v : Byte) : Memory :=
  match m with
  | [] => [(addr, v)]
  | (b, w) :: rest =>
    if addr < b then (addr, v) :: (b, w) :: rest
    else if addr = b then (addr, v) :: rest
    else (b, w) :: Memory.put rest addr v

/-- What a listed or an unlisted address reads as: the byte last written, else `BUF_RESET` (R31; log entry 1). -/
def Memory.byteAt (m : Memory) (addr : Nat) : Byte :=
  (Memory.cell? m addr).getD (Config.bufReset addr)

/-- `MemRead(addr, 1)` (R8, R31), none at address 255, which does not exist (R29). No side effect. -/
def Memory.load? (m : Memory) (addr : Byte) : Option Byte :=
  if addr.toNat < Config.bufDepth then some (Memory.byteAt m addr.toNat) else none

/-- `MemWrite(addr, 1, v)` (R8, R30), none at address 255, which does not exist (R29). -/
def Memory.store? (m : Memory) (addr v : Byte) : Option Memory :=
  if addr.toNat < Config.bufDepth then some (Memory.put m addr.toNat v) else none

/-- The canonical form: addresses strictly rising, all of them addresses of the buffer. An unlisted address has no cell,
so no listed cell repeats one (log entry 2). -/
abbrev Memory.Wf (m : Memory) : Prop :=
  m.Pairwise (fun x y => x.1 < y.1) ∧ ∀ x ∈ m, x.1 < Config.bufDepth

/-- The bytes at the addresses 0 to `n - 1`, in index order: `buf[0 .. n-1]`. -/
def Memory.bytes (m : Memory) (n : Nat) : List Byte :=
  (List.range n).map (Memory.byteAt m)

/-! ## Register updates -/

/-- `state <- q`: the control transfer (R8). -/
def State.goto (s : State) (q : SyncState) : State := { s with state := q }

/-- The return to Idle at the end of a frame, whatever its outcome: `state <- Idle`, `bytes_needed <- 1` (R81, R86,
R118). There is no other return: nothing was saved (R120). -/
def State.toIdle (s : State) : State := { s with state := .idle, bytesNeeded := 1 }

/-- Writes both accumulators. -/
def State.setCk (s : State) (acc : Byte × Byte) : State := { s with ckA := acc.1, ckB := acc.2 }

/-- CK.STEP on the registers (R65). -/
def State.feedCk (s : State) (c : Byte) : State := s.setCk (ckStepOf (s.ckA, s.ckB) c)

/-- CK.CLEAR on the registers (R64). -/
def State.clearCk (s : State) : State := s.setCk (0, 0)

/-! ## Conditions and events -/

/-- Taking a condition (R115, R118): the frame is over, the state goes to Idle, and the condition is recorded in the two
flags. Nothing is saved, masked or vectored. -/
def State.raise (s : State) (cond : Condition) : State := s.toIdle.report cond.status

/-- `emit FrameOk` (R88, R115): the same mechanism with status OK. -/
def State.emitFrameOk (s : State) : State := s.toIdle.report .ok

/-! ## Buffer accesses inside a transition -/

/-- Goes on after `MemWrite(addr, 1, v)`. -/
def withStore (s : State) (addr v : Byte) (k : State → Host.Outcome State Fault Refusal) :
    Host.Outcome State Fault Refusal :=
  match Memory.store? s.buf addr v with
  | some m => k { s with buf := m }
  | none   => .fault .noSuchBufferAddress

/-- Goes on with the byte of `MemRead(addr, 1)`. -/
def withLoad (s : State) (addr : Byte) (k : Byte → Host.Outcome State Fault Refusal) :
    Host.Outcome State Fault Refusal :=
  match Memory.load? s.buf addr with
  | some v => k v
  | none   => .fault .noSuchBufferAddress

/-! ## The input ports -/

/-- The ports as the next clock edge samples them; an idle cycle when nothing more is queued (R92; log entry 3). -/
def State.nextPorts (s : State) : CycleIn := s.inputs.headD CycleIn.idle

/-- The cycle's sample is gone after the cycle: each byte is consumed exactly once (R37). -/
def State.consume (s : State) : State := { s with inputs := s.inputs.tail }

/-- What selects the next cycle's action (R55, R92). -/
def State.selection (s : State) : Selection :=
  { ports := s.nextPorts, state := s.state, bytesNeeded := s.bytesNeeded }

/-- Makes `p` the next cycle's selection: its ports are sampled next, and `state` and `bytes_needed` are its own, 1
outside HaveLen (R13); `msg_len` is raised where it would be below `bytes_needed` in HaveLen (R24 item 3). -/
def State.present (s : State) (p : Selection) : State :=
  { s with
    state := p.state
    bytesNeeded := if p.state = .haveLen then p.bytesNeeded else 1
    msgLen := if p.state = .haveLen ∧ s.msgLen < p.bytesNeeded then p.bytesNeeded else s.msgLen
    inputs := p.ports :: s.inputs }

end Sys2Proof.Machine
end

