-- ==== Sys2Proof/Machine/Checksum.lean ====
section
/-! DEFINITION. The checksum unit (`40_checksum.md`): the micro-operations CK.CLEAR, CK.STEP and CK.VALUE, and the
functions `checksum` and `verify`. The unit cannot fail (rule R72), and it writes no flag. -/

namespace Sys2Proof.Machine

/-- CK.CLEAR (R64): `(ck_a, ck_b) <- (0x00, 0x00)`. -/
def execCkClear (s : State) : Host.Outcome State Fault Refusal := .next s.clearCk

/-- CK.STEP (R65): `(ck_a, ck_b) <- CkStep((ck_a, ck_b), c)`. -/
def execCkStep (c : Byte) (s : State) : Host.Outcome State Fault Refusal := .next (s.feedCk c)

/-- CK.VALUE (R66): "reads the accumulators and changes nothing". The value read is `State.calcCk`, which `out_ck`
shows at all times. -/
def execCkValue (s : State) : Host.Outcome State Fault Refusal := .next s

/-- `checksum(bytes)` (R67). -/
def checksum (bytes : List Byte) : Word16 :=
  ckValueOf (ckFeed (0, 0) bytes).1 (ckFeed (0, 0) bytes).2

/-- `verify(id, len, app, (ck_lo, ck_hi))` (R68). -/
def verify (id len : Byte) (app : List Byte) (ckLo ckHi : Byte) : Bool :=
  checksum (id :: len :: app) == le16 ckLo ckHi

end Sys2Proof.Machine
end

