-- ==== Sys2Proof/Machine/Cycle.lean ====
section
/-! DEFINITION. The two cycle-level actions that take no byte: RESET (rule R129) and NOP (rule R93). -/

namespace Sys2Proof.Machine

/-- RESET (R129): every register takes its reset value; `buf` is not written. -/
def execReset (s : State) : Host.Outcome State Fault Refusal :=
  .next { State.reset with buf := s.buf, inputs := s.inputs }

/-- NOP (R93): `frame_done <- 0`, every other register and `buf` unchanged. -/
def execNop (s : State) : Host.Outcome State Fault Refusal := .next s.clearDone

end Sys2Proof.Machine
end

