-- ==== Sys2Proof/Machine/Header.lean ====
section
/-! DEFINITION. Identifier and length capture (`42_header.md`): the transitions of the states Start2 and HaveId. -/

namespace Sys2Proof.Machine

/-- START2.ID (R79): CK.CLEAR then CK.STEP on the identifier, whatever the accumulators held. -/
def execStart2Id (c : Byte) (s : State) : Host.Outcome State Fault Refusal :=
  .next ((({ s.clearDone with msgId := c }).clearCk.feedCk c).goto .haveId)

/-- HAVEID.LEN (R80): the length is stored, covered by the checksum, and believed. -/
def execHaveidLen (c : Byte) (s : State) : Host.Outcome State Fault Refusal :=
  .next ((({ s.clearDone with msgLen := c, bytesNeeded := c }).feedCk c).goto .haveLen)

/-- HAVEID.LEN0 (R81): a frame without a payload is over at its length byte, with `LengthError`. The zero byte is fed to
the checksum unit too. -/
def execHaveidLen0 (_c : Byte) (s : State) : Host.Outcome State Fault Refusal :=
  .next ((({ s with msgLen := 0 }).feedCk 0).raise .lengthError)

end Sys2Proof.Machine
end

