-- ==== Sys2Proof/Machine/Payload.lean ====
section
/-! DEFINITION. Payload capture and checksum validation (`43_payload.md`): the transitions of the state HaveLen. Each
stores the accepted byte at `idx = msg_len - bytes_needed` (rule R30). -/

namespace Sys2Proof.Machine

/-- HAVELEN.DATA (R84): an application payload byte, covered by the checksum. -/
def execHavelenData (c : Byte) (s : State) : Host.Outcome State Fault Refusal :=
  withStore s s.payloadIndex c fun t =>
    .next ({ t.clearDone.feedCk c with bytesNeeded := s.bytesNeeded - 1 })

/-- HAVELEN.CKLO (R85): `ck_lo` is stored, not fed to the checksum unit, and not compared yet. -/
def execHavelenCklo (c : Byte) (s : State) : Host.Outcome State Fault Refusal :=
  withStore s s.payloadIndex c fun t =>
    .next ({ t.clearDone with bytesNeeded := 1 })

/-- HAVELEN.LAST (R86): the last payload byte. The length test comes first (R117); otherwise the received checksum, its
low byte read from the buffer as it stood before this step (R8), is compared with the computed one. -/
def execHavelenLast (c : Byte) (s : State) : Host.Outcome State Fault Refusal :=
  withStore s s.payloadIndex c fun t =>
    if s.msgLen < Config.minValidLen then .next (t.raise .lengthError)
    else
      withLoad s (s.msgLen - 2) fun ckLo =>
        .next (if le16 ckLo c = s.calcCk then t.emitFrameOk else t.raise .checksumMismatch)

end Sys2Proof.Machine
end

