-- ==== Sys2Proof/Machine/Sync.lean ====
section
/-! DEFINITION. The sync-word detector (`41_sync_detect.md`): the transitions of the states Idle and Start1. Each writes
`state` and clears `frame_done`, nothing else. -/

namespace Sys2Proof.Machine

/-- IDLE.SYNC (R74): `state <- Start1`. -/
def execIdleSync (_c : Byte) (s : State) : Host.Outcome State Fault Refusal := .next (s.clearDone.goto .start1)

/-- IDLE.SKIP (R75): `state <- Idle`; the byte is forgotten. -/
def execIdleSkip (_c : Byte) (s : State) : Host.Outcome State Fault Refusal := .next (s.clearDone.goto .idle)

/-- START1.SYNC (R76): `state <- Start2`. -/
def execStart1Sync (_c : Byte) (s : State) : Host.Outcome State Fault Refusal := .next (s.clearDone.goto .start2)

/-- START1.FALL (R77): `state <- Idle`; the byte is not examined again. -/
def execStart1Fall (_c : Byte) (s : State) : Host.Outcome State Fault Refusal := .next (s.clearDone.goto .idle)

end Sys2Proof.Machine
end

