-- ==== Sys2Proof/Machine/Dispatch.lean ====
section
/-! DEFINITION. One arm per row of the opcode table. -/

namespace Sys2Proof.Machine

def exec (i : Instr) (s : State) : Host.Outcome State Fault Refusal :=
  match i with
  -- the sync-word detector
  | .idleSync c => Sys2Proof.Machine.execIdleSync c s
  | .idleSkip c => Sys2Proof.Machine.execIdleSkip c s
  | .start1Sync c => Sys2Proof.Machine.execStart1Sync c s
  | .start1Fall c => Sys2Proof.Machine.execStart1Fall c s
  -- the header
  | .start2Id c => Sys2Proof.Machine.execStart2Id c s
  | .haveidLen c => Sys2Proof.Machine.execHaveidLen c s
  | .haveidLen0 c => Sys2Proof.Machine.execHaveidLen0 c s
  -- the payload
  | .havelenData c => Sys2Proof.Machine.execHavelenData c s
  | .havelenCklo c => Sys2Proof.Machine.execHavelenCklo c s
  | .havelenLast c => Sys2Proof.Machine.execHavelenLast c s
  -- the cycle-level actions
  | .reset => Sys2Proof.Machine.execReset s
  | .nop => Sys2Proof.Machine.execNop s
  -- the checksum unit's micro-operations
  | .ckClear => Sys2Proof.Machine.execCkClear s
  | .ckStep c => Sys2Proof.Machine.execCkStep c s
  | .ckValue => Sys2Proof.Machine.execCkValue s

end Sys2Proof.Machine
end

