-- ==== Sys2Proof/Machine/Step.lean ====
section
/-! DEFINITION. One step of the machine is one clock cycle (rule R92): the ports are sampled, the action they and the
registers select is decoded, and it is executed. -/

namespace Sys2Proof.Machine

/-- R92: the cycle's sample leaves the queue, and the selected action runs. -/
def step (s : State) : Host.Outcome State Fault Refusal :=
  match decode s.selection with
  | .ok i    => exec i s.consume
  | .error _ => .refused .noTransition

/-- `s` with the instruction of a table word selected by its next cycle (log entry 4): the word's byte at the input
port, and the word's state; unchanged where the word stands for no selection. -/
def State.withFetchWord (s : State) (nbits w : Nat) : State :=
  match selectionOfBytes (tableWordBytes nbits w) with
  | .ok p    => s.present p
  | .error _ => s

end Sys2Proof.Machine
end

