-- ==== Sys2Proof/Machine/Wire.lean ====
section
/-! DEFINITION. The wire format (`30_encoding.md` section 1): valid frames, and the construction of frames and of
frames with a damaged checksum. The sender's side is a function only: no transmitter is part of the block (rule R3). -/

namespace Sys2Proof.Machine

/-- The sync word (R45). -/
def syncWord : List Byte := [Config.syncByte, Config.syncByte]

/-- The two checksum bytes of a 16-bit value in wire order: bits 7:0 first (R48). -/
def ckBytes (ck : Word16) : List Byte := [ck.extractLsb' 0 8, ck.extractLsb' 8 8]

/-- The length byte of a frame with this application payload: `|app| + 2` (R50). -/
def frameLen (app : List Byte) : Byte := BitVec.ofNat 8 (app.length + 2)

/-- The checksum of a frame: over identifier, length and application payload (R47). -/
def frameCk (id : Byte) (app : List Byte) : Word16 := checksum (id :: frameLen app :: app)

/-- `Frame(id, app)` (R50), meant for `|app| ≤ 253`. -/
def frame (id : Byte) (app : List Byte) : List Byte :=
  syncWord ++ [id, frameLen app] ++ app ++ ckBytes (frameCk id app)

/-- `BadFrame(id, app, e)` (R62), meant for `e ≠ 0`: the last two bytes exclusive-ored with `e`. -/
def badFrame (id : Byte) (app : List Byte) (e : Word16) : List Byte :=
  syncWord ++ [id, frameLen app] ++ app ++ ckBytes (frameCk id app ^^^ e)

/-- A valid frame (R49), read off the byte sequence by position. -/
def ValidFrame (w : List Byte) : Prop :=
  6 ≤ w.length ∧ w[0]? = some Config.syncByte ∧ w[1]? = some Config.syncByte ∧
  ∃ id len lo hi : Byte, w[2]? = some id ∧ w[3]? = some len ∧
    Config.minValidLen ≤ len ∧ w.length = 4 + len.toNat ∧
    w[w.length - 2]? = some lo ∧ w[w.length - 1]? = some hi ∧
    le16 lo hi = checksum (id :: len :: (w.drop 4).take (w.length - 6))

/-- Garbage that holds no two adjacent sync bytes and does not end in one (R78 item 3, R105). -/
def CleanGarbage (w : List Byte) : Prop :=
  (∀ i, w[i]? = some Config.syncByte → w[i + 1]? ≠ some Config.syncByte) ∧ w.getLast? ≠ some Config.syncByte

end Sys2Proof.Machine
end

