-- ==== Sys2Proof/Machine/Ports.lean ====
section
/-! DEFINITION. The output ports (rule R21), functions of the registers, and the events the block reports through them
(rules R88 and R89). -/

namespace Sys2Proof.Machine

/-- `in_ready`: constant 1, the block never stalls the upstream (R21, R145). -/
def State.inReady (_s : State) : Bool := true

/-- `out_msg_id` (R21). -/
def State.outMsgId (s : State) : Byte := s.msgId

/-- `out_msg_len` (R21). -/
def State.outMsgLen (s : State) : Byte := s.msgLen

/-- `out_app_len` (R21). -/
def State.outAppLen (s : State) : Byte := s.appLen

/-- `out_ck` (R21, R66). -/
def State.outCk (s : State) : Word16 := s.calcCk

/-- `rd_data` for `rd_addr` (R21, R29): combinational, without side effect; address 255 reads `0x00`. -/
def State.rdData (s : State) (rdAddr : Byte) : Byte := (Memory.load? s.buf rdAddr).getD 0

/-- What a completed frame is reported as: `FrameOk` (R88), `ChecksumMismatch` or `LengthError` (R89), each with what it
consists of. -/
inductive Event where
  | frameOk (msgId msgLen : Byte) (app : List Byte)
  | checksumMismatch (msgId msgLen : Byte) (calculated received : Word16)
  | lengthError (msgId msgLen : Byte)
deriving DecidableEq, Repr

/-- The bytes a downstream reads at `rd_addr` 0 to `out_app_len - 1`, in order (R88). -/
def State.readApp (s : State) : List Byte :=
  (List.range s.outAppLen.toNat).map fun i => s.rdData (BitVec.ofNat 8 i)

/-- The event the output ports show: none unless `frame_done` is 1, and otherwise what R88 and R89 say stands at which
port. -/
def State.event (s : State) : Option Event :=
  if s.frameDone then
    match s.frameStatus with
    | .ok     => some (.frameOk s.outMsgId s.outMsgLen s.readApp)
    | .ckErr  => some (.checksumMismatch s.outMsgId s.outMsgLen s.outCk
                  (le16 (s.rdData (s.outMsgLen - 2)) (s.rdData (s.outMsgLen - 1))))
    | .lenErr => some (.lengthError s.outMsgId s.outMsgLen)
  else none

end Sys2Proof.Machine
end

