-- ==== Sys2Proof/Machine/Stream.lean ====
section
/-! DEFINITION. Cycles, runs and the whole step as one function (`44_step_and_stream.md`), the terms in which the
spec's laws speak. -/

namespace Sys2Proof.Machine

/-- `Cycle(s, rst, in_valid, in_data)` (R92): one step of the machine with these values at its input ports, ahead of
whatever was queued. -/
def cycle (x : CycleIn) (s : State) : Host.Outcome State Fault Refusal :=
  step { s with inputs := x :: s.inputs }

/-- A run over cycles: the final state and the events in order, each read off the output ports after its cycle. -/
def run (xs : List CycleIn) (s : State) : Host.Outcome (State × List Event) Fault Refusal :=
  match xs with
  | [] => .next (s, [])
  | x :: rest =>
    match cycle x s with
    | .next t =>
      match run rest t with
      | .next (u, es) => .next (u, t.event.toList ++ es)
      | .fault r      => .fault r
      | .refused r    => .refused r
    | .fault r   => .fault r
    | .refused r => .refused r

/-- `Run(s, w)` (R94): the run over the bytes of `w`, one accepted byte a cycle. -/
def feed (w : List Byte) (s : State) : Host.Outcome (State × List Event) Fault Refusal :=
  run (w.map CycleIn.byte) s

/-- The checksum bytes that HAVELEN.LAST compares with the accumulators: `LE16(buf[msg_len-2], c)` (R61). -/
def State.rxCk (s : State) (c : Byte) : Word16 := le16 (Memory.byteAt s.buf (s.msgLen - 2).toNat) c

/-- `Step(s, c)`, the whole behaviour as ONE function, written from rule R91 alone and used by nothing in the machine:
a second account of the machine, to be proved equal to the transitions. -/
def wholeStep (s : State) (c : Byte) : State × Option Event :=
  match s.state with
  | .idle =>
    ({ s with frameDone := false, state := if c = 0xFF then .start1 else .idle }, none)
  | .start1 =>
    ({ s with frameDone := false, state := if c = 0xFF then .start2 else .idle }, none)
  | .start2 =>
    ({ s with frameDone := false, msgId := c, ckA := 0 + c, ckB := 0 + (0 + c), state := .haveId }, none)
  | .haveId =>
    let a := s.ckA + c
    let b := s.ckB + a
    if c = 0 then
      ({ s with msgLen := c, ckA := a, ckB := b, bytesNeeded := 1, state := .idle
                frameDone := true, frameStatus := .lenErr },
        some (.lengthError s.msgId 0))
    else
      ({ s with frameDone := false, msgLen := c, ckA := a, ckB := b, bytesNeeded := c, state := .haveLen }, none)
  | .haveLen =>
    let buf := Memory.put s.buf (s.msgLen - s.bytesNeeded).toNat c
    if s.bytesNeeded > 1 then
      let a := if s.bytesNeeded > 2 then s.ckA + c else s.ckA
      let b := if s.bytesNeeded > 2 then s.ckB + a else s.ckB
      ({ s with frameDone := false, buf := buf, ckA := a, ckB := b, bytesNeeded := s.bytesNeeded - 1 }, none)
    else
      let done := { s with buf := buf, bytesNeeded := 1, state := .idle, frameDone := true }
      if s.msgLen < 2 then
        ({ done with frameStatus := .lenErr }, some (.lengthError s.msgId s.msgLen))
      else if s.rxCk c = ckValueOf s.ckA s.ckB then
        ({ done with frameStatus := .ok },
          some (.frameOk s.msgId s.msgLen (Memory.bytes buf (s.msgLen.toNat - 2))))
      else
        ({ done with frameStatus := .ckErr },
          some (.checksumMismatch s.msgId s.msgLen (ckValueOf s.ckA s.ckB) (s.rxCk c)))

/-- `Run` of rule R94 over `wholeStep`. -/
def wholeRun (s : State) (w : List Byte) : State × List Event :=
  match w with
  | [] => (s, [])
  | c :: rest =>
    let r := wholeStep s c
    let q := wholeRun r.1 rest
    (q.1, r.2.toList ++ q.2)

end Sys2Proof.Machine
end

