-- ==== Sys2Proof/Safety.lean ====
section
/-! DEFINITION. What counts as a safe run: the invariants of rule R24 and the states that runs from reset reach. -/

namespace Sys2Proof.Machine

/-- R24 item 5: how many payload bytes the accumulators cover, `n = min(idx, max(msg_len, 2) - 2)`. -/
def State.coveredCount (s : State) : Nat :=
  min (s.msgLen.toNat - s.bytesNeeded.toNat) (max s.msgLen.toNat 2 - 2)

/-- Rule R24, the items that speak of one state, and the canonical form of the buffer. Item 1 holds by the type of
`state`; item 6 speaks of the bytes accepted in the past. -/
structure Inv (s : State) : Prop where
  /-- Item 2. -/
  needsOne : s.state ≠ .haveLen → s.bytesNeeded = 1
  /-- Item 3. -/
  needsSome : s.state = .haveLen → 1 ≤ s.bytesNeeded ∧ s.bytesNeeded ≤ s.msgLen
  /-- Item 4. -/
  ckOfId : s.state = .haveId → s.ckA = s.msgId ∧ s.ckB = s.msgId
  /-- Item 5. -/
  ckOfFrame : s.state = .haveLen →
    (s.ckA, s.ckB) = ckFeed (0, 0) (s.msgId :: s.msgLen :: Memory.bytes s.buf s.coveredCount)
  /-- Item 7. -/
  doneIdle : s.frameDone = true → s.state = .idle
  /-- The buffer keeps its canonical form (log entry 2). -/
  bufWf : Memory.Wf s.buf

/-- The states of runs: after reset with anything at the input ports from then on, and after any cycle of such a
state. -/
inductive Reachable : State → Prop where
  | reset (xs : List CycleIn) : Reachable { State.reset with inputs := xs }
  | step {s t : State} : Reachable s → step s = .next t → Reachable t

/-- Machine states that agree in everything but the `frame_done` pulse (R93). -/
def SameButDone (s t : State) : Prop := s.clearDone = t.clearDone

end Sys2Proof.Machine
end

