-- ==== Sys2Proof/Certificates/Slice0/Obligations.lean ====
section
/-! DEFINITION. The statements about the machine, in the order of OBLIGATIONS.json: reset and the ports; decoding; what
each instruction answers; frames; the buffer and the checksum unit; invariants; the laws of streams. -/

open Sys2Proof Sys2Proof.Machine

/-! ## Reset, cycles and ports -/

/-- R23: the reset value of every register, and that the buffer reads as `BUF_RESET`, whatever that is. -/
def Obligations.ResetLeavesTheseValues : Prop :=
  State.reset.state = .idle ∧ State.reset.bytesNeeded = 1 ∧ State.reset.msgId = 0 ∧ State.reset.msgLen = 0 ∧
  State.reset.ckA = 0 ∧ State.reset.ckB = 0 ∧ State.reset.frameDone = false ∧ State.reset.frameStatus.code = 0 ∧
  ∀ a : Byte, a.toNat ≤ 254 → Memory.load? State.reset.buf a = some (Config.bufReset a.toNat)

/-- R92: in one cycle `rst` wins over `in_valid` and leaves the reset values with `buf` unchanged; otherwise an accepted
byte makes the step of R91, which is the `exec` of the transition it selects; otherwise only `frame_done` changes. -/
def Obligations.CycleFollowsThePorts : Prop :=
  ∀ (s : State) (x : CycleIn),
    (x.rst = true → cycle x s = exec .reset s ∧
      cycle x s = .next { State.reset with buf := s.buf, inputs := s.inputs }) ∧
    (x.rst = false → x.inValid = true →
      (∀ i, decodeByte s.state s.bytesNeeded x.inData = .ok i → cycle x s = exec i s) ∧
      (Inv s → cycle x s = .next (wholeStep s x.inData).1)) ∧
    (x.rst = false → x.inValid = false → cycle x s = .next { s with frameDone := false })

/-- When the ports and the registers select a well-formed instruction, the step is that instruction's `exec`, on the
state whose queue of port samples (the model's own) has lost its first entry. -/
def Obligations.StepRunsTheDecodedInstruction : Prop :=
  ∀ (s : State) (i : Instr),
    decode { ports := s.inputs.headD CycleIn.idle, state := s.state, bytesNeeded := s.bytesNeeded } = .ok i →
      step s = exec i { s with inputs := s.inputs.tail }

/-- The word that the host numbers as the opcode table does is run by the very next step, on the registers that
`withFetchWord` selected (log entry 4). -/
def Obligations.FetchWordIsRunNext : Prop :=
  ∀ (s : State) (nbits w : Nat) (i : Instr), decodeTableWord nbits w = some i →
    step (s.withFetchWord nbits w) = exec i { s.withFetchWord nbits w with inputs := s.inputs }

/-- Every cycle takes exactly one port sample off the queue, which is the model's own (log entry 3): R37 as the
queue shows it. -/
def Obligations.EachSampleIsConsumedOnce : Prop :=
  ∀ s t : State, step s = .next t → t.inputs = s.inputs.tail

/-- R21: the output ports. Address 255 reads `0x00`; every other address reads the buffer. -/
def Obligations.OutputPortsShowTheRegisters : Prop :=
  ∀ s : State, s.inReady = true ∧ s.outMsgId = s.msgId ∧ s.outMsgLen = s.msgLen ∧
    (2 ≤ s.msgLen → s.outAppLen = s.msgLen - 2) ∧ (s.msgLen < 2 → s.outAppLen = 0) ∧
    s.outCk = (s.ckA.zeroExtend 16 <<< 8) ||| s.ckB.zeroExtend 16 ∧
    s.rdData 255 = 0 ∧ ∀ a : Byte, a ≠ 255 → Memory.load? s.buf a = some (s.rdData a)

/-! ## Decoding -/

/-- A few words written out from R53, R55 and R92 decode to what they stand for; the layout of the word is the model's
own (log entry 4). -/
def Obligations.SampleWordsDecode : Prop :=
  decodeBytes [0xFF, 0, 1, 0] = .ok (.idleSync 0xFF) ∧ decodeBytes [0xFE, 0, 1, 0] = .ok (.idleSkip 0xFE) ∧
  decodeBytes [0xFF, 1, 1, 0] = .ok (.start1Sync 0xFF) ∧ decodeBytes [0x7F, 1, 1, 0] = .ok (.start1Fall 0x7F) ∧
  decodeBytes [0xFF, 2, 1, 0] = .ok (.start2Id 0xFF) ∧ decodeBytes [0x05, 3, 1, 0] = .ok (.haveidLen 0x05) ∧
  decodeBytes [0x00, 3, 1, 0] = .ok (.haveidLen0 0x00) ∧ decodeBytes [0xFF, 4, 255, 0] = .ok (.havelenData 0xFF) ∧
  decodeBytes [0x21, 4, 2, 0] = .ok (.havelenCklo 0x21) ∧ decodeBytes [0x06, 4, 1, 0] = .ok (.havelenLast 0x06) ∧
  decodeBytes [0xF6, 4, 3, 1] = .ok .reset ∧ decodeBytes [0x00, 4, 3, 2] = .ok .nop ∧
  decodeTableWord 8 0xFF = some (.idleSync 0xFF) ∧ decodeTableWord 8 0x00 = some (.idleSkip 0x00)

/-- R55: which transition each row of the table selects; and for every state and byte exactly one row of the
machine-readable table is selected, the row of the instruction that the decoder gives. HaveLen with `bytes_needed = 0`
has none: R55 calls it unreachable, and that the decoder then refuses by the name `noTransition` is the model's choice
(log entry 6). -/
def Obligations.ExactlyOneTableRowIsSelected : Prop :=
  ∀ (q : SyncState) (n c : Byte),
    (decodeByte .idle n 0xFF = .ok (.idleSync 0xFF) ∧ (c ≠ 0xFF → decodeByte .idle n c = .ok (.idleSkip c)) ∧
      decodeByte .start1 n 0xFF = .ok (.start1Sync 0xFF) ∧
      (c ≠ 0xFF → decodeByte .start1 n c = .ok (.start1Fall c)) ∧ decodeByte .start2 n c = .ok (.start2Id c) ∧
      (c ≠ 0 → decodeByte .haveId n c = .ok (.haveidLen c)) ∧ decodeByte .haveId n 0 = .ok (.haveidLen0 0) ∧
      (2 < n → decodeByte .haveLen n c = .ok (.havelenData c)) ∧
      decodeByte .haveLen 2 c = .ok (.havelenCklo c) ∧ decodeByte .haveLen 1 c = .ok (.havelenLast c)) ∧
    (¬ (q = .haveLen ∧ n = 0) → ∃ i, decodeByte q n c = .ok i ∧ i.wellFormed = true ∧
      (transitionTable.filter fun r => r.selected q n c).map TableRow.mnemonic = [i.mnemonic]) ∧
    (q = .haveLen → n = 0 → decodeByte q n c = .error .noTransition ∧
      (transitionTable.filter fun r => r.selected q n c) = [])

/-- R53: the five state codes, one to one; the codes above 4 stand for no state. -/
def Obligations.StateCodesAreOneToOne : Prop :=
  SyncState.code .idle = 0 ∧ SyncState.code .start1 = 1 ∧ SyncState.code .start2 = 2 ∧
  SyncState.code .haveId = 3 ∧ SyncState.code .haveLen = 4 ∧
  (∀ (b : Byte) (q : SyncState), stateOfCode b = some q ↔ b = q.code) ∧
  ∀ b : Byte, 4 < b → stateOfCode b = none

/-- Decoding the word of a well-formed instruction gives it back, with its operand at every value; the checksum unit's
micro-operations have no word, and no word decodes to one (R56). -/
def Obligations.DecodeOfEncodeGivesTheInstruction : Prop :=
  ∀ i : Instr, i.wellFormed = true →
    (i.isMicroOp = false → ∃ w, encode i = some w ∧ decodeBytes w = .ok i) ∧
    (i.isMicroOp = true → encode i = none ∧ ∀ w, decodeBytes w ≠ .ok i)

/-- Whatever the decoder gives is well formed, and writing it down and decoding again gives the same. -/
def Obligations.DecodedInstructionsAreWellFormed : Prop :=
  ∀ (w : List Byte) (i : Instr), decodeBytes w = .ok i →
    i.wellFormed = true ∧ ∃ v, encode i = some v ∧ v.length = w.length ∧ decodeBytes v = .ok i

/-! ## What each instruction answers -/

/-- R74 to R77: each transition of the sync detector writes `state`, clears `frame_done`, changes nothing else and
reports no event; which byte selects which; and a cycle without a byte does not leave Idle. -/
def Obligations.SyncDetectorTransitions : Prop :=
  ∀ (s : State) (c : Byte),
    exec (.idleSync c) s = .next { s with state := .start1, frameDone := false } ∧
    exec (.idleSkip c) s = .next { s with state := .idle, frameDone := false } ∧
    exec (.start1Sync c) s = .next { s with state := .start2, frameDone := false } ∧
    exec (.start1Fall c) s = .next { s with state := .idle, frameDone := false } ∧
    (∀ q, State.event { s with state := q, frameDone := false } = none) ∧
    (s.state = .idle → c = 0xFF → cycle (.byte c) s = exec (.idleSync c) s) ∧
    (s.state = .idle → c ≠ 0xFF → cycle (.byte c) s = exec (.idleSkip c) s) ∧
    (s.state = .idle → cycle .idle s = .next { s with frameDone := false }) ∧
    (s.state = .start1 → c = 0xFF → cycle (.byte c) s = exec (.start1Sync c) s) ∧
    (s.state = .start1 → c ≠ 0xFF → cycle (.byte c) s = exec (.start1Fall c) s)

/-- R79: START2.ID stores every identifier alike and restarts the accumulators from zero, whatever they held. -/
def Obligations.Start2IdStoresTheIdentifier : Prop :=
  ∀ (s : State) (c : Byte),
    exec (.start2Id c) s =
      .next { s with msgId := c, ckA := c, ckB := c, state := .haveId, frameDone := false } ∧
    State.event { s with msgId := c, ckA := c, ckB := c, state := .haveId, frameDone := false } = none ∧
    (s.state = .start2 → cycle (.byte c) s = exec (.start2Id c) s)

/-- R80: HAVEID.LEN stores the length, sets the counter to it and covers it by the checksum. -/
def Obligations.HaveidLenStoresTheLength : Prop :=
  ∀ (s : State) (c : Byte), c ≠ 0 →
    exec (.haveidLen c) s =
      .next { s with msgLen := c, bytesNeeded := c, ckA := s.ckA + c, ckB := s.ckB + (s.ckA + c)
                     state := .haveLen, frameDone := false } ∧
    (∀ t, exec (.haveidLen c) s = .next t → t.event = none) ∧
    (s.state = .haveId → cycle (.byte c) s = exec (.haveidLen c) s)

/-- R81: HAVEID.LEN0 ends the frame at its length byte with `LengthError`, after the checksum step on the zero byte. -/
def Obligations.HaveidLen0DropsTheFrame : Prop :=
  ∀ s : State,
    exec (.haveidLen0 0) s =
      .next { s with msgLen := 0, ckA := s.ckA, ckB := s.ckB + s.ckA, bytesNeeded := 1, state := .idle
                     frameDone := true, frameStatus := .lenErr } ∧
    (∀ t, exec (.haveidLen0 0) s = .next t → t.event = some (.lengthError s.msgId 0)) ∧
    (s.state = .haveId → cycle (.byte 0) s = exec (.haveidLen0 0) s)

/-- R84: HAVELEN.DATA stores the byte at `idx = msg_len - bytes_needed`, feeds it to the checksum and counts down. -/
def Obligations.HavelenDataStoresAndFeeds : Prop :=
  ∀ (s : State) (c : Byte), 2 < s.bytesNeeded → s.bytesNeeded ≤ s.msgLen →
    (∃ m, exec (.havelenData c) s =
        .next { s with buf := m, ckA := s.ckA + c, ckB := s.ckB + (s.ckA + c)
                       bytesNeeded := s.bytesNeeded - 1, frameDone := false } ∧
      State.event { s with buf := m, ckA := s.ckA + c, ckB := s.ckB + (s.ckA + c)
                           bytesNeeded := s.bytesNeeded - 1, frameDone := false } = none ∧
      (∀ a : Byte, Memory.load? m a =
        if a = s.msgLen - s.bytesNeeded then some c else Memory.load? s.buf a)) ∧
    s.msgLen - s.bytesNeeded < s.msgLen - 2 ∧ 2 ≤ s.bytesNeeded - 1 ∧
    (s.state = .haveLen → cycle (.byte c) s = exec (.havelenData c) s)

/-- R85: HAVELEN.CKLO stores the first checksum byte at `msg_len - 2`; the accumulators are unchanged. -/
def Obligations.HavelenCkloStoresOnly : Prop :=
  ∀ (s : State) (c : Byte), s.bytesNeeded = 2 → 2 ≤ s.msgLen →
    (∃ m, exec (.havelenCklo c) s = .next { s with buf := m, bytesNeeded := 1, frameDone := false } ∧
      State.event { s with buf := m, bytesNeeded := 1, frameDone := false } = none ∧
      (∀ a : Byte, Memory.load? m a = if a = s.msgLen - 2 then some c else Memory.load? s.buf a)) ∧
    (s.state = .haveLen → cycle (.byte c) s = exec (.havelenCklo c) s)

/-- R86: HAVELEN.LAST stores the last byte at `msg_len - 1` and returns to Idle in all three outcomes: `LengthError`
below length 2, with no comparison; otherwise `FrameOk` or `ChecksumMismatch` by comparing all 16 bits. -/
def Obligations.HavelenLastDecidesTheFrame : Prop :=
  ∀ (s : State) (c : Byte), s.bytesNeeded = 1 → s.msgLen ≠ 0 →
    (∃ m f, exec (.havelenLast c) s =
        .next { s with buf := m, state := .idle, bytesNeeded := 1, frameDone := true, frameStatus := f } ∧
      (∀ a : Byte, Memory.load? m a = if a = s.msgLen - 1 then some c else Memory.load? s.buf a) ∧
      (s.msgLen < 2 → f = .lenErr ∧
        ∀ t, exec (.havelenLast c) s = .next t → t.event = some (.lengthError s.msgId s.msgLen)) ∧
      (2 ≤ s.msgLen → ∃ lo, Memory.load? s.buf (s.msgLen - 2) = some lo ∧
        (c ++ lo = s.ckA ++ s.ckB → f = .ok ∧ ∀ t, exec (.havelenLast c) s = .next t →
          t.event = some (.frameOk s.msgId s.msgLen (Memory.bytes s.buf (s.msgLen.toNat - 2)))) ∧
        (c ++ lo ≠ s.ckA ++ s.ckB → f = .ckErr ∧ ∀ t, exec (.havelenLast c) s = .next t →
          t.event = some (.checksumMismatch s.msgId s.msgLen (s.ckA ++ s.ckB) (c ++ lo))))) ∧
    (s.state = .haveLen → cycle (.byte c) s = exec (.havelenLast c) s)

/-- R29: address 255 does not exist. A HAVELEN transition whose index would be 255, which no state of a run has (R24),
stops with the fault of that name; every other index completes. -/
def Obligations.MissingBufferAddressFaults : Prop :=
  ∀ (s : State) (c : Byte), ∀ i ∈ [Instr.havelenData c, .havelenCklo c, .havelenLast c],
    (s.msgLen - s.bytesNeeded = 255 → exec i s = .fault .noSuchBufferAddress) ∧
    (s.msgLen - s.bytesNeeded ≠ 255 → ∃ t, exec i s = .next t)

/-- R129: RESET writes every register its reset value whatever the state and the other ports, and leaves `buf`; a second
reset cycle changes nothing; no event is reported. -/
def Obligations.ResetCycleResult : Prop :=
  ∀ (s : State) (x : CycleIn), x.rst = true → ∃ t,
    exec .reset s = .next t ∧ cycle x s = .next t ∧ cycle x t = .next t ∧ t.event = none ∧
    t = { state := .idle, msgId := 0, msgLen := 0, bytesNeeded := 1, ckA := 0, ckB := 0, frameDone := false
          frameStatus := .ok, buf := s.buf, inputs := s.inputs }

/-- NOP clears `frame_done` and leaves every other register and the buffer, and so do any number of idle cycles (the
first half of R93). -/
def Obligations.IdleCyclesOnlyEndThePulse : Prop :=
  ∀ s : State, exec .nop s = .next { s with frameDone := false } ∧
    ∀ k, run (List.replicate (k + 1) CycleIn.idle) s = .next ({ s with frameDone := false }, [])

/-- R64 to R66: the micro-operations of the checksum unit, which write no flag and no other register; no selection of
ports and registers decodes to one; and who invokes them: reset and START2.ID clear; START2.ID, HAVEID.LEN, HAVEID.LEN0
and HAVELEN.DATA step; HAVELEN.LAST compares with the value. -/
def Obligations.ChecksumUnitOperations : Prop :=
  ∀ (s : State) (c : Byte),
    exec .ckClear s = .next { s with ckA := 0, ckB := 0 } ∧
    exec (.ckStep c) s = .next { s with ckA := s.ckA + c, ckB := s.ckB + (s.ckA + c) } ∧
    exec .ckValue s = .next s ∧ s.outCk = (s.ckA.zeroExtend 16 <<< 8) ||| s.ckB.zeroExtend 16 ∧
    (∀ p i, decode p = .ok i → i.isMicroOp = false) ∧
    (∀ t, exec .reset s = .next t → (t.ckA, t.ckB) = (0, 0)) ∧
    (∀ t, exec (.start2Id c) s = .next t → exec (.ckStep c) { s with ckA := 0, ckB := 0 } =
      .next { s with ckA := t.ckA, ckB := t.ckB }) ∧
    (∀ i ∈ [Instr.haveidLen c, .havelenData c], ∀ t, exec i s = .next t →
      exec (.ckStep c) s = .next { s with ckA := t.ckA, ckB := t.ckB }) ∧
    (∀ t, exec (.haveidLen0 c) s = .next t → exec (.ckStep 0) s = .next { s with ckA := t.ckA, ckB := t.ckB }) ∧
    (∀ t lo, exec (.havelenLast c) s = .next t → 2 ≤ s.msgLen → Memory.load? s.buf (s.msgLen - 2) = some lo →
      (t.frameStatus = .ok ↔ le16 lo c = s.outCk))

/-- R115: raising a condition writes the two flags with the code of R54, the transition that raises it returns to Idle,
and the event is reported with its information (R89); nothing else is written, saved or masked. `emit FrameOk` is the
same with status 0. -/
def Obligations.RaisingReportsAndReturnsToIdle : Prop :=
  ∀ s : State,
    s.raise .checksumMismatch =
      { s with state := .idle, bytesNeeded := 1, frameDone := true, frameStatus := .ckErr } ∧
    s.raise .lengthError =
      { s with state := .idle, bytesNeeded := 1, frameDone := true, frameStatus := .lenErr } ∧
    s.emitFrameOk = { s with state := .idle, bytesNeeded := 1, frameDone := true, frameStatus := .ok } ∧
    FrameStatus.code .ok = 0 ∧ FrameStatus.code .ckErr = 1 ∧ FrameStatus.code .lenErr = 2 ∧
    (s.raise .lengthError).event = some (.lengthError s.msgId s.msgLen) ∧
    (∀ lo hi, Memory.load? s.buf (s.msgLen - 2) = some lo → Memory.load? s.buf (s.msgLen - 1) = some hi →
      (s.raise .checksumMismatch).event = some (.checksumMismatch s.msgId s.msgLen (s.ckA ++ s.ckB) (hi ++ lo)))

/-! ## Frames: what an instruction leaves unchanged -/

/-- The write columns of the table of R25, row by row: each instruction's next state differs from its state in the
registers named here only, and in the one buffer byte at `idx` where a byte is stored. Every other register, both flags
where not named, and every other byte of the buffer keep their values. -/
def Obligations.InstructionsWriteOnlyTheirRegisters : Prop :=
  ∀ (s t : State) (c : Byte),
    (∀ i ∈ [Instr.idleSync c, .idleSkip c, .start1Sync c, .start1Fall c], exec i s = .next t →
      t = { s with state := t.state, frameDone := false }) ∧
    (exec (.start2Id c) s = .next t →
      t = { s with state := t.state, msgId := t.msgId, ckA := t.ckA, ckB := t.ckB, frameDone := false }) ∧
    (exec (.haveidLen c) s = .next t →
      t = { s with state := t.state, msgLen := t.msgLen, bytesNeeded := t.bytesNeeded, ckA := t.ckA, ckB := t.ckB
                   frameDone := false }) ∧
    (exec (.haveidLen0 c) s = .next t →
      t = { s with state := t.state, msgLen := t.msgLen, bytesNeeded := 1, ckA := t.ckA, ckB := t.ckB
                   frameDone := true, frameStatus := t.frameStatus }) ∧
    (exec (.havelenData c) s = .next t →
      t = { s with bytesNeeded := t.bytesNeeded, ckA := t.ckA, ckB := t.ckB, frameDone := false, buf := t.buf }) ∧
    (exec (.havelenCklo c) s = .next t →
      t = { s with bytesNeeded := t.bytesNeeded, frameDone := false, buf := t.buf }) ∧
    (exec (.havelenLast c) s = .next t →
      t = { s with state := t.state, bytesNeeded := 1, frameDone := true, frameStatus := t.frameStatus
                   buf := t.buf }) ∧
    (∀ i ∈ [Instr.havelenData c, .havelenCklo c, .havelenLast c], exec i s = .next t →
      ∀ a : Byte, a ≠ s.msgLen - s.bytesNeeded → Memory.load? t.buf a = Memory.load? s.buf a) ∧
    (exec .nop s = .next t → t = { s with frameDone := false }) ∧
    (exec .reset s = .next t → t.buf = s.buf ∧ t.inputs = s.inputs) ∧
    (∀ i ∈ [Instr.ckClear, .ckStep c], exec i s = .next t → t = { s with ckA := t.ckA, ckB := t.ckB }) ∧
    (exec .ckValue s = .next t → t = s)

/-- R98: the complete transition graph. -/
def Obligations.TransitionGraphIsComplete : Prop :=
  ∀ (s t : State) (x : CycleIn), cycle x s = .next t →
    (x.rst = true → t.state = .idle) ∧
    (x.rst = false → x.inValid = false → t.state = s.state) ∧
    (x.rst = false → x.inValid = true →
      (s.state = .idle → t.state = if x.inData = 0xFF then .start1 else .idle) ∧
      (s.state = .start1 → t.state = if x.inData = 0xFF then .start2 else .idle) ∧
      (s.state = .start2 → t.state = .haveId) ∧
      (s.state = .haveId → t.state = if x.inData = 0 then .idle else .haveLen) ∧
      (s.state = .haveId → x.inData = 0 → t.frameStatus = .lenErr) ∧
      (s.state = .haveLen → t.state = if 1 < s.bytesNeeded then .haveLen else .idle))

/-! ## The buffer and the checksum unit -/

/-- A read after a write gives the written byte at its address and leaves every other address alone, and a write keeps
the canonical form; two buffers in canonical form with the same cells are equal. -/
def Obligations.BufferReadAfterWrite : Prop :=
  (∀ (m m' : Memory) (a v : Byte), Memory.store? m a v = some m' →
    a ≠ 255 ∧ (∀ b : Byte, Memory.load? m' b = if b = a then some v else Memory.load? m b) ∧
    (Memory.Wf m → Memory.Wf m')) ∧
  ∀ m m' : Memory, Memory.Wf m → Memory.Wf m' → (∀ a, Memory.cell? m a = Memory.cell? m' a) → m = m'

/-- R30: every step taken in HaveLen writes the accepted byte at `idx` and no other address; no other cycle writes the
buffer; and under the invariants `idx` is below `msg_len`. -/
def Obligations.OnlyHavelenStepsWriteTheBuffer : Prop :=
  ∀ (s t : State) (x : CycleIn), cycle x s = .next t →
    (s.state = .haveLen → x.rst = false → x.inValid = true →
      ∀ a : Byte, Memory.load? t.buf a =
        if a = s.msgLen - s.bytesNeeded then some x.inData else Memory.load? s.buf a) ∧
    (¬ (s.state = .haveLen ∧ x.rst = false ∧ x.inValid = true) → t.buf = s.buf) ∧
    (Inv s → s.state = .haveLen → s.msgLen - s.bytesNeeded < s.msgLen)

/-- Laws 1 and 2 of R71: what the two accumulators are, modulo 256. -/
def Obligations.AccumulatorsAreTheTwoSums : Prop :=
  ∀ w : List Byte,
    (ckFeed (0, 0) w).1.toNat = (w.map BitVec.toNat).sum % 256 ∧
    (ckFeed (0, 0) w).2.toNat =
      ((List.range w.length).map fun i => (w.length - i) * (w.getD i 0).toNat).sum % 256

/-- Law 5 of R71: changing one byte of a sequence changes its checksum. -/
def Obligations.OneChangedByteIsDetected : Prop :=
  ∀ (p q : List Byte) (x y : Byte), x ≠ y → checksum (p ++ x :: q) ≠ checksum (p ++ y :: q)

/-- R68: `verify` compares all 16 bits, that is, the low byte with `b` and the high byte with `a`, of the checksum over
identifier, length and application payload. -/
def Obligations.VerifyComparesBothBytes : Prop :=
  ∀ (id len : Byte) (app : List Byte) (lo hi : Byte),
    (verify id len app lo hi = true ↔ checksum ([id, len] ++ app) = hi ++ lo) ∧
    (verify id len app lo hi = true ↔
      lo = (ckFeed (0, 0) ([id, len] ++ app)).2 ∧ hi = (ckFeed (0, 0) ([id, len] ++ app)).1)

/-- R70: when HAVELEN.LAST is taken, the accumulators hold the checksum of the covered bytes, so its comparison has the
truth value of `verify` over the stored bytes. -/
def Obligations.RunningChecksumEqualsVerify : Prop :=
  ∀ (s : State) (c : Byte), Inv s → s.state = .haveLen → s.bytesNeeded = 1 → 2 ≤ s.msgLen →
    s.calcCk = checksum ([s.msgId, s.msgLen] ++ Memory.bytes s.buf (s.msgLen.toNat - 2)) ∧
    ∃ lo t, Memory.load? s.buf (s.msgLen - 2) = some lo ∧ cycle (.byte c) s = .next t ∧
      (le16 lo c = s.calcCk ↔
        verify s.msgId s.msgLen (Memory.bytes s.buf (s.msgLen.toNat - 2)) lo c = true) ∧
      (t.frameStatus = .ok ↔
        verify s.msgId s.msgLen (Memory.bytes s.buf (s.msgLen.toNat - 2)) lo c = true)

/-- R50: what `Frame` builds is a valid frame by R49 of 6 to 259 bytes, and every valid frame is the `Frame` of its own
identifier and application payload. -/
def Obligations.ValidFramesAreExactlyFrames : Prop :=
  (∀ (id : Byte) (app : List Byte), app.length ≤ 253 →
    ValidFrame (frame id app) ∧ (frame id app).length = app.length + 6) ∧
  ∀ w : List Byte, ValidFrame w →
    ((w.drop 4).take (w.length - 6)).length ≤ 253 ∧ w = frame (w.getD 2 0) ((w.drop 4).take (w.length - 6))

/-! ## Invariants -/

/-- The invariants hold at reset, whatever the input ports will show. -/
def Obligations.InvariantsHoldAtReset : Prop := ∀ xs : List CycleIn, Inv { State.reset with inputs := xs }

/-- Every step keeps the invariants of R24, from every state that meets them, and the buffer's canonical form. -/
def Obligations.EveryStepKeepsTheInvariants : Prop := ∀ s t : State, Inv s → step s = .next t → Inv t

/-- R24 (the items that speak of one state): every state that a run from reset reaches, with any bytes, idle cycles and
resets, meets the invariants. -/
def Obligations.ReachableStatesMeetTheInvariants : Prop := ∀ s : State, Reachable s → Inv s

/-- R60: from every state that meets the invariants every cycle has a next state: the machine never faults and never
stops. -/
def Obligations.NoInputStopsTheMachine : Prop := ∀ s : State, Inv s → ∃ t, step s = .next t ∧ Inv t

/-- R121: nothing is fatal: no byte sequence stops the block; and from every state other than Idle, whatever bytes
follow, Idle is reached again within 258 bytes, a bound that one path needs. -/
def Obligations.IdleIsReachedWithin258Bytes : Prop :=
  (∀ (s : State) (w : List Byte), Inv s → ∃ t es, feed w s = .next (t, es) ∧ Inv t) ∧
  (∀ (s : State) (w : List Byte), Inv s → s.state ≠ .idle → 258 ≤ w.length →
    ∃ k, k ≤ 258 ∧ ∃ t es, feed (w.take k) s = .next (t, es) ∧ t.state = .idle) ∧
  ∃ (s : State) (w : List Byte), Inv s ∧ s.state = .start1 ∧ w.length = 258 ∧
    ∀ k, k < 258 → ∃ t es, feed (w.take k) s = .next (t, es) ∧ t.state ≠ .idle

/-! ## The whole step and the laws of streams -/

/-- R91: an accepted byte does exactly what the one function of R91 says, in registers, buffer and event. -/
def Obligations.TransitionsEqualTheWholeStep : Prop :=
  ∀ (s : State) (c : Byte), Inv s →
    cycle (.byte c) s = .next (wholeStep s c).1 ∧ (wholeStep s c).1.event = (wholeStep s c).2

/-- R94: a run over a byte sequence is `Run` over the one function of R91. -/
def Obligations.RunsEqualTheWholeRun : Prop :=
  ∀ (s : State) (w : List Byte), Inv s → feed w s = .next (wholeRun s w)

/-- R95: running `x ++ y` is running `x` and then `y`, with the event lists joined. -/
def Obligations.ChunkingDoesNotMatter : Prop :=
  ∀ (s : State) (x y : List Byte), Inv s → ∃ t es u fs,
    feed x s = .next (t, es) ∧ feed y t = .next (u, fs) ∧ feed (x ++ y) s = .next (u, es ++ fs)

/-- R93: an idle cycle clears `frame_done` and nothing else; and idle cycles put anywhere among the bytes change neither
the events nor any register, but for `frame_done`. -/
def Obligations.IdleCyclesAreInvisible : Prop :=
  (∀ s : State, cycle .idle s = .next { s with frameDone := false }) ∧
  ∀ (s : State) (xs : List CycleIn), Inv s → (∀ x ∈ xs, x.rst = false) → ∃ t u es,
    run xs s = .next (t, es) ∧ run (xs.filter CycleIn.inValid) s = .next (u, es) ∧ SameButDone t u

/-- R108 (but for its last sentence): a step reports at most one event, only HAVELEN.LAST and HAVEID.LEN0 report one,
and lengths are as the event says. -/
def Obligations.OnlyCompletingStepsReport : Prop :=
  ∀ (s t : State) (x : CycleIn), Inv s → cycle x s = .next t →
    (t.event ≠ none → x.rst = false ∧ x.inValid = true ∧
      ((s.state = .haveLen ∧ s.bytesNeeded = 1) ∨ (s.state = .haveId ∧ x.inData = 0))) ∧
    (∀ id len app, t.event = some (.frameOk id len app) → 2 ≤ len) ∧
    (∀ id len, t.event = some (.lengthError id len) → len < 2) ∧
    (s.state = .idle ∨ s.state = .start1 ∨ s.state = .start2 → x.rst = false →
      t.event = none ∧ t.frameStatus = s.frameStatus)

/-- R90 with R24 item 6: in HaveLen no byte value changes the control flow. Payload bytes are taken by count alone, are
stored in order from `idx` on, and the frame ends, with one event, exactly when `bytes_needed` of them are taken. -/
def Obligations.PayloadIsTakenByCountAlone : Prop :=
  ∀ (s : State) (w : List Byte), Inv s → s.state = .haveLen → w.length ≤ s.bytesNeeded.toNat → ∃ t es,
    feed w s = .next (t, es) ∧ t.msgId = s.msgId ∧ t.msgLen = s.msgLen ∧
    (w.length < s.bytesNeeded.toNat →
      t.state = .haveLen ∧ t.bytesNeeded.toNat = s.bytesNeeded.toNat - w.length ∧ es = []) ∧
    (w.length = s.bytesNeeded.toNat → t.state = .idle ∧ es.length = 1) ∧
    (∀ i, i < w.length → Memory.cell? t.buf ((s.msgLen - s.bytesNeeded).toNat + i) = w[i]?) ∧
    ∀ a, a < (s.msgLen - s.bytesNeeded).toNat → Memory.byteAt t.buf a = Memory.byteAt s.buf a

/-- R82, the length validator, and what every frame comes to: from Idle, a sync word, an identifier, a length byte and
that many bytes give exactly one event, at the last of them, decided by length, then checksum, over those bytes. -/
def Obligations.EveryFrameHasThisOutcome : Prop :=
  ∀ (s : State) (id len : Byte) (w : List Byte), Inv s → s.state = .idle → w.length = len.toNat →
    (∀ k, k < 4 + len.toNat → ∃ u, feed ((syncWord ++ [id, len] ++ w).take k) s = .next (u, [])) ∧
    ∃ t, feed (syncWord ++ [id, len] ++ w) s = .next (t,
      [if len < 2 then Event.lengthError id len
       else if verify id len (w.take (len.toNat - 2)) (w.getD (len.toNat - 2) 0) (w.getD (len.toNat - 1) 0) then
         Event.frameOk id len (w.take (len.toNat - 2))
       else Event.checksumMismatch id len (checksum (id :: len :: w.take (len.toNat - 2)))
         (le16 (w.getD (len.toNat - 2) 0) (w.getD (len.toNat - 1) 0))]) ∧ t.state = .idle

/-- R103: a valid frame decodes, with its one event at its last byte. -/
def Obligations.ValidFrameDecodes : Prop :=
  ∀ (s : State) (id : Byte) (app : List Byte), Inv s → s.state = .idle → app.length ≤ 253 →
    (∃ t, feed (frame id app) s = .next (t, [.frameOk id (BitVec.ofNat 8 (app.length + 2)) app]) ∧
      t.state = .idle) ∧
    ∃ u, feed (frame id app).dropLast s = .next (u, [])

/-- R104: a damaged checksum drops its frame and nothing more: the next frame decodes. -/
def Obligations.DamagedChecksumDropsOneFrame : Prop :=
  ∀ (s : State) (id : Byte) (app : List Byte) (e : Word16), Inv s → s.state = .idle → app.length ≤ 253 → e ≠ 0 →
    (∃ t, feed (badFrame id app e) s = .next (t, [.checksumMismatch id (BitVec.ofNat 8 (app.length + 2))
        (frameCk id app) (frameCk id app ^^^ e)]) ∧ t.state = .idle) ∧
    ∀ (id2 : Byte) (app2 : List Byte), app2.length ≤ 253 →
      ∃ u, feed (badFrame id app e ++ frame id2 app2) s = .next (u,
        [.checksumMismatch id (BitVec.ofNat 8 (app.length + 2)) (frameCk id app) (frameCk id app ^^^ e),
         .frameOk id2 (BitVec.ofNat 8 (app2.length + 2)) app2])

/-- R105: garbage that holds no two adjacent sync bytes and does not end in one leaves Idle, reports nothing, changes no
register but `frame_done`, and does not keep the frame after it from decoding. -/
def Obligations.CleanGarbageIsSkipped : Prop :=
  ∀ (s : State) (g : List Byte), Inv s → s.state = .idle → CleanGarbage g →
    (∃ t, feed g s = .next (t, []) ∧ t.state = .idle ∧ SameButDone s t) ∧
    ∀ (id : Byte) (app : List Byte), app.length ≤ 253 → ∃ u,
      feed (g ++ frame id app) s = .next (u, [.frameOk id (BitVec.ofNat 8 (app.length + 2)) app]) ∧ u.state = .idle

/-- R106: from Idle a sync word, an identifier and a length byte `L` consume exactly `4 + L` bytes before Idle is
reached again, with exactly one event, by the last of them, for every `L` and every content. -/
def Obligations.FrameConsumesFourPlusLength : Prop :=
  ∀ (s : State) (id len : Byte) (w : List Byte), Inv s → s.state = .idle → w.length = len.toNat →
    (∃ t e, feed (syncWord ++ [id, len] ++ w) s = .next (t, [e]) ∧ t.state = .idle) ∧
    ∀ k, 0 < k → k < 4 + len.toNat → ∃ u,
      feed ((syncWord ++ [id, len] ++ w).take k) s = .next (u, []) ∧ u.state ≠ .idle

/-- R107: valid frames back to back all decode, in order. -/
def Obligations.BackToBackFramesDecode : Prop :=
  ∀ (s : State) (fs : List (Byte × List Byte)), Inv s → s.state = .idle → (∀ f ∈ fs, f.2.length ≤ 253) → ∃ t,
    feed (fs.flatMap fun f => frame f.1 f.2) s =
      .next (t, fs.map fun f => .frameOk f.1 (BitVec.ofNat 8 (f.2.length + 2)) f.2) ∧ t.state = .idle

/-- Item 2 of R78: a stray sync byte directly before a frame shifts the framing: the frame's second sync byte is taken
for the identifier and its identifier for the length. -/
def Obligations.StraySyncByteMisframes : Prop :=
  ∀ (s : State) (id : Byte) (app : List Byte), Inv s → s.state = .idle → id ≠ 0 → ∃ t,
    feed ((0xFF :: frame id app).take 4) s = .next (t, []) ∧ t.state = .haveLen ∧ t.msgId = 0xFF ∧ t.msgLen = id ∧
      t.bytesNeeded = id

/-- The window of R134: after a completed frame (any state in Idle) `buf[i]` keeps its value until the `(5 + i)`-th
later byte is accepted, at the earliest. -/
def Obligations.BufferBytesOutliveTheNextHeader : Prop :=
  ∀ (s : State) (w : List Byte) (i : Nat), Inv s → s.state = .idle → i < 255 → w.length ≤ 4 + i → ∃ t es,
    feed w s = .next (t, es) ∧ Memory.byteAt t.buf i = Memory.byteAt s.buf i

/-- The windows of R135 and R140, in accepted bytes after a completed frame (any state in Idle): identifier and
accumulators are stable for two, length and status for three, and no frame completes within three. -/
def Obligations.HeaderRegistersOutliveTheSyncWord : Prop :=
  ∀ (s : State) (w : List Byte), Inv s → s.state = .idle → w.length ≤ 3 → ∃ t,
    feed w s = .next (t, []) ∧ t.msgLen = s.msgLen ∧ t.frameStatus = s.frameStatus ∧
    (w.length ≤ 2 → t.msgId = s.msgId ∧ t.ckA = s.ckA ∧ t.ckB = s.ckB)

/-- R131: a reset in the middle of a frame forgets the frame without a trace: what follows is read exactly as after the
reset state with the buffer as it stood. -/
def Obligations.ResetForgetsTheFrameInProgress : Prop :=
  ∀ (s : State) (x : CycleIn) (w : List Byte), x.rst = true → Inv s → ∃ t es,
    run (x :: w.map CycleIn.byte) s = .next (t, es) ∧
    feed w { State.reset with buf := s.buf, inputs := s.inputs } = .next (t, es)
end

