-- ==== Sys2Proof/Laws/Checksum.lean ====
section
/-! SUPPORT. The checksum unit's arithmetic: feeding in pieces, and that the 16-bit values are pairs of bytes. -/

namespace Sys2Proof.Machine

@[simp] theorem ckFeed_nil (acc : Byte × Byte) : ckFeed acc [] = acc := rfl

@[simp] theorem ckFeed_cons (acc : Byte × Byte) (c : Byte) (w : List Byte) :
    ckFeed acc (c :: w) = ckFeed (ckStepOf acc c) w := rfl

/-- Law 4 of R71: the unit can be fed in pieces. -/
theorem ckFeed_append (acc : Byte × Byte) (x y : List Byte) : ckFeed acc (x ++ y) = ckFeed (ckFeed acc x) y :=
  List.foldl_append

/-- A 16-bit value is its high and its low byte. -/
theorem ckValueOf_inj {a b c d : Byte} (h : ckValueOf a b = ckValueOf c d) : a = c ∧ b = d := by
  have h1 := a.isLt
  have h2 := b.isLt
  have h3 := c.isLt
  have h4 := d.isLt
  have e := congrArg BitVec.toNat h
  simp only [ckValueOf, BitVec.toNat_append] at e
  rw [← Nat.shiftLeft_add_eq_or_of_lt h2, ← Nat.shiftLeft_add_eq_or_of_lt h4, Nat.shiftLeft_eq, Nat.shiftLeft_eq] at e
  constructor <;> apply BitVec.eq_of_toNat_eq <;> omega

theorem le16_eq_ckValueOf (lo hi : Byte) : le16 lo hi = ckValueOf hi lo := rfl

/-- Taking a 16-bit value apart in wire order and putting it together again. -/
theorem le16_extract (ck : Word16) : le16 (ck.extractLsb' 0 8) (ck.extractLsb' 8 8) = ck := by
  unfold le16
  apply BitVec.eq_of_getLsbD_eq
  intro i hi
  rw [BitVec.getLsbD_append]
  by_cases h : i < 8
  · simp [h]
  · simp [h, show 8 + (i - 8) = i by omega]
    omega

theorem frameLen_toNat {app : List Byte} (h : app.length ≤ Config.maxAppLen) :
    (frameLen app).toNat = app.length + 2 := by
  simp only [Config.maxAppLen] at h
  simp only [frameLen, BitVec.toNat_ofNat]
  omega

end Sys2Proof.Machine
end

