-- ==== Sys2Proof/Laws/Decode.lean ====
section
/-! SUPPORT. What the decoder answers, said once: each instruction with the state, counter and byte that select it. -/

namespace Sys2Proof

@[simp] theorem stateOfCode_code (q : SyncState) : stateOfCode q.code = some q := by
  cases q <;> decide

/-- A cycle with a byte and no reset is decoded by the table of R55. -/
@[simp] theorem decode_byte (c : Byte) (q : SyncState) (n : Byte) :
    decode { ports := CycleIn.byte c, state := q, bytesNeeded := n } = decodeByte q n c := rfl

/-- What selects a transition (R55), read from the instruction: its state, its guard, and its operand. -/
def SelectedBy (i : Instr) (q : SyncState) (n c : Byte) : Prop :=
  match i with
  | .idleSync d    => d = c ∧ q = .idle ∧ c = Config.syncByte
  | .idleSkip d    => d = c ∧ q = .idle ∧ c ≠ Config.syncByte
  | .start1Sync d  => d = c ∧ q = .start1 ∧ c = Config.syncByte
  | .start1Fall d  => d = c ∧ q = .start1 ∧ c ≠ Config.syncByte
  | .start2Id d    => d = c ∧ q = .start2
  | .haveidLen d   => d = c ∧ q = .haveId ∧ c ≠ 0
  | .haveidLen0 d  => d = c ∧ q = .haveId ∧ c = 0
  | .havelenData d => d = c ∧ q = .haveLen ∧ 2 < n
  | .havelenCklo d => d = c ∧ q = .haveLen ∧ n = 2
  | .havelenLast d => d = c ∧ q = .haveLen ∧ n = 1
  | .reset | .nop | .ckClear | .ckStep _ | .ckValue => False

/-- The decoder's spec for an accepted byte: exactly the selected instruction. -/
theorem decodeByte_iff {q : SyncState} {n c : Byte} {i : Instr} :
    decodeByte q n c = .ok i ↔ SelectedBy i q n c := by
  constructor
  · intro h
    cases q <;> simp only [decodeByte] at h
    case start2 => cases h; exact ⟨rfl, rfl⟩
    all_goals split_ifs at h <;> cases h <;> simp only [SelectedBy, true_and, ne_eq] <;> assumption
  · intro h
    cases i <;> simp only [SelectedBy] at h
    case start2Id => obtain ⟨rfl, rfl⟩ := h; rfl
    case havelenCklo => obtain ⟨rfl, rfl, rfl⟩ := h; rfl
    case havelenLast => obtain ⟨rfl, rfl, rfl⟩ := h; rfl
    all_goals (obtain ⟨rfl, rfl, h⟩ := h; simp only [decodeByte, h, if_true, if_false])

/-- The decoder's spec for a cycle: reset, an idle cycle, or an accepted byte's instruction (R92). -/
theorem decode_iff {p : Selection} {i : Instr} :
    decode p = .ok i ↔
      (p.ports.rst = true ∧ i = .reset) ∨
      (p.ports.rst = false ∧ p.ports.inValid = false ∧ i = .nop) ∨
      (p.ports.rst = false ∧ p.ports.inValid = true ∧ SelectedBy i p.state p.bytesNeeded p.ports.inData) := by
  rw [← decodeByte_iff]
  cases hr : p.ports.rst <;> cases hv : p.ports.inValid <;> simp [decode, hr, hv, eq_comm]

/-- The condition on its byte holds of every selected instruction, and it is no micro-operation. -/
theorem SelectedBy.wellFormed {i : Instr} {q : SyncState} {n c : Byte} (h : SelectedBy i q n c) :
    i.wellFormed = true ∧ i.isMicroOp = false := by
  cases i <;> simp only [SelectedBy] at h <;> simp_all [Instr.wellFormed, Instr.isMicroOp]

end Sys2Proof
end

