-- ==== Sys2Proof/Laws/Memory.lean ====
section
/-! SUPPORT. The laws of the payload buffer: reading after a write, and that a write keeps the canonical form. -/

namespace Sys2Proof.Machine

@[simp] theorem Memory.cell?_nil (a : Nat) : Memory.cell? [] a = none := rfl

theorem Memory.cell?_cons (b : Nat) (w : Byte) (m : Memory) (a : Nat) :
    Memory.cell? ((b, w) :: m) a = if a = b then some w else Memory.cell? m a := rfl

/-- Reading a cell after a write: the written byte at its own address, and what was there at every other. -/
@[simp] theorem Memory.cell?_put (m : Memory) (a b : Nat) (v : Byte) :
    Memory.cell? (Memory.put m a v) b = if b = a then some v else Memory.cell? m b := by
  induction m with
  | nil => simp [Memory.put, Memory.cell?_cons]
  | cons x m ih =>
    obtain ⟨d, w⟩ := x
    by_cases h1 : a < d
    · simp [Memory.put, h1, Memory.cell?_cons]
    · by_cases h2 : a = d
      · subst h2
        simp only [Memory.put, lt_irrefl, if_false, if_true, Memory.cell?_cons]
        split <;> rfl
      · simp only [Memory.put, h1, h2, if_false, Memory.cell?_cons, ih]
        by_cases hb : b = d
        · have : ¬ b = a := by omega
          simp [hb, Ne.symm h2]
        · simp [hb]

/-- A written cell is the new one or an old one. -/
theorem Memory.mem_put {m : Memory} {a : Nat} {v : Byte} {x : Host.Cell} (h : x ∈ Memory.put m a v) :
    x = (a, v) ∨ x ∈ m := by
  induction m with
  | nil => simpa [Memory.put] using h
  | cons y m ih =>
    obtain ⟨d, w⟩ := y
    simp only [Memory.put] at h
    split at h
    · simpa using h
    · split at h
      · rcases List.mem_cons.mp h with rfl | h
        · exact .inl rfl
        · exact .inr (List.mem_cons_of_mem _ h)
      · rcases List.mem_cons.mp h with rfl | h
        · exact .inr List.mem_cons_self
        · rcases ih h with rfl | h
          · exact .inl rfl
          · exact .inr (List.mem_cons_of_mem _ h)

@[simp] theorem Memory.wf_nil : Memory.Wf [] := by simp [Memory.Wf]

theorem Memory.wf_put {m : Memory} (h : Memory.Wf m) {a : Nat} (ha : a < Config.bufDepth) (v : Byte) :
    Memory.Wf (Memory.put m a v) := by
  refine ⟨?_, fun x hx => ?_⟩
  · have hp := h.1
    clear h ha
    induction m with
    | nil => simp [Memory.put]
    | cons y m ih =>
      obtain ⟨d, w⟩ := y
      obtain ⟨hd, hm⟩ := List.pairwise_cons.mp hp
      simp only [Memory.put]
      split
      · next hlt =>
        refine List.pairwise_cons.mpr ⟨fun x hx => ?_, hp⟩
        rcases List.mem_cons.mp hx with rfl | hx
        · exact hlt
        · exact hlt.trans (hd x hx)
      · split
        · next heq =>
          subst heq
          exact List.pairwise_cons.mpr ⟨hd, hm⟩
        · next hlt hne =>
          refine List.pairwise_cons.mpr ⟨fun x hx => ?_, ih hm⟩
          rcases Memory.mem_put hx with rfl | hx
          · show d < a
            omega
          · exact hd x hx
  · rcases Memory.mem_put hx with rfl | hx
    · exact ha
    · exact h.2 x hx

@[simp] theorem Memory.byteAt_put (m : Memory) (a b : Nat) (v : Byte) :
    Memory.byteAt (Memory.put m a v) b = if b = a then v else Memory.byteAt m b := by
  unfold Memory.byteAt
  by_cases h : b = a <;> simp [h]

@[simp] theorem Memory.byteAt_nil (a : Nat) : Memory.byteAt [] a = Config.bufReset a := rfl

/-- The one address without a byte. -/
theorem Memory.depth_iff (a : Byte) : a.toNat < Config.bufDepth ↔ a ≠ 255#8 := by
  have := a.isLt
  constructor
  · rintro h rfl
    exact absurd h (by decide)
  · intro h
    have : a.toNat ≠ 255 := fun e => h (BitVec.eq_of_toNat_eq e)
    simp only [Config.bufDepth]
    omega

theorem Memory.load?_of_ne {m : Memory} {a : Byte} (h : a ≠ 255#8) :
    Memory.load? m a = some (Memory.byteAt m a.toNat) := by
  simp [Memory.load?, (Memory.depth_iff a).mpr h]

@[simp] theorem Memory.load?_255 (m : Memory) : Memory.load? m 255#8 = none := by
  simp [Memory.load?, Config.bufDepth]

theorem Memory.store?_of_ne {m : Memory} {a v : Byte} (h : a ≠ 255#8) :
    Memory.store? m a v = some (Memory.put m a.toNat v) := by
  simp [Memory.store?, (Memory.depth_iff a).mpr h]

@[simp] theorem Memory.store?_255 (m : Memory) (v : Byte) : Memory.store? m 255#8 v = none := by
  simp [Memory.store?, Config.bufDepth]

theorem Memory.load?_put {m : Memory} {a : Byte} (h : a ≠ 255#8) (v b : Byte) :
    Memory.load? (Memory.put m a.toNat v) b = if b = a then some v else Memory.load? m b := by
  by_cases hb : b = 255#8
  · subst hb
    rw [if_neg (fun e => h e.symm), Memory.load?_255, Memory.load?_255]
  · rw [Memory.load?_of_ne hb, Memory.load?_of_ne hb, Memory.byteAt_put]
    by_cases e : b = a
    · simp [e]
    · have : b.toNat ≠ a.toNat := fun h => e (BitVec.eq_of_toNat_eq h)
      simp [e, this]

@[simp] theorem Memory.length_bytes (m : Memory) (n : Nat) : (Memory.bytes m n).length = n := by
  simp [Memory.bytes]

theorem Memory.bytes_succ (m : Memory) (n : Nat) :
    Memory.bytes m (n + 1) = Memory.bytes m n ++ [Memory.byteAt m n] := by
  simp [Memory.bytes, List.range_succ]

/-- A write at or above `n` leaves the bytes below `n`. -/
theorem Memory.bytes_put_of_le (m : Memory) {n a : Nat} (h : n ≤ a) (v : Byte) :
    Memory.bytes (Memory.put m a v) n = Memory.bytes m n := by
  simp only [Memory.bytes]
  refine List.map_congr_left fun b hb => ?_
  rw [Memory.byteAt_put, if_neg]
  have := List.mem_range.mp hb
  omega

end Sys2Proof.Machine
end

