-- ==== Sys2Proof/Laws/State.lean ====
section
/-! SUPPORT. One lemma per field per named update of the state, each true by rfl, so that no proof unfolds an update. -/

namespace Sys2Proof.Machine

/-! ### goto -/

@[simp] theorem State.goto_state (s : State) (q : SyncState) : (s.goto q).state = q := rfl
@[simp] theorem State.goto_msgId (s : State) (q : SyncState) : (s.goto q).msgId = s.msgId := rfl
@[simp] theorem State.goto_msgLen (s : State) (q : SyncState) : (s.goto q).msgLen = s.msgLen := rfl
@[simp] theorem State.goto_bytesNeeded (s : State) (q : SyncState) : (s.goto q).bytesNeeded = s.bytesNeeded := rfl
@[simp] theorem State.goto_ckA (s : State) (q : SyncState) : (s.goto q).ckA = s.ckA := rfl
@[simp] theorem State.goto_ckB (s : State) (q : SyncState) : (s.goto q).ckB = s.ckB := rfl
@[simp] theorem State.goto_frameDone (s : State) (q : SyncState) : (s.goto q).frameDone = s.frameDone := rfl
@[simp] theorem State.goto_frameStatus (s : State) (q : SyncState) : (s.goto q).frameStatus = s.frameStatus := rfl
@[simp] theorem State.goto_buf (s : State) (q : SyncState) : (s.goto q).buf = s.buf := rfl
@[simp] theorem State.goto_inputs (s : State) (q : SyncState) : (s.goto q).inputs = s.inputs := rfl

/-! ### clearDone -/

@[simp] theorem State.clearDone_state (s : State) : (s.clearDone).state = s.state := rfl
@[simp] theorem State.clearDone_msgId (s : State) : (s.clearDone).msgId = s.msgId := rfl
@[simp] theorem State.clearDone_msgLen (s : State) : (s.clearDone).msgLen = s.msgLen := rfl
@[simp] theorem State.clearDone_bytesNeeded (s : State) : (s.clearDone).bytesNeeded = s.bytesNeeded := rfl
@[simp] theorem State.clearDone_ckA (s : State) : (s.clearDone).ckA = s.ckA := rfl
@[simp] theorem State.clearDone_ckB (s : State) : (s.clearDone).ckB = s.ckB := rfl
@[simp] theorem State.clearDone_frameDone (s : State) : (s.clearDone).frameDone = false := rfl
@[simp] theorem State.clearDone_frameStatus (s : State) : (s.clearDone).frameStatus = s.frameStatus := rfl
@[simp] theorem State.clearDone_buf (s : State) : (s.clearDone).buf = s.buf := rfl
@[simp] theorem State.clearDone_inputs (s : State) : (s.clearDone).inputs = s.inputs := rfl

/-! ### report -/

@[simp] theorem State.report_state (s : State) (f : FrameStatus) : (s.report f).state = s.state := rfl
@[simp] theorem State.report_msgId (s : State) (f : FrameStatus) : (s.report f).msgId = s.msgId := rfl
@[simp] theorem State.report_msgLen (s : State) (f : FrameStatus) : (s.report f).msgLen = s.msgLen := rfl
@[simp] theorem State.report_bytesNeeded (s : State) (f : FrameStatus) : (s.report f).bytesNeeded = s.bytesNeeded := rfl
@[simp] theorem State.report_ckA (s : State) (f : FrameStatus) : (s.report f).ckA = s.ckA := rfl
@[simp] theorem State.report_ckB (s : State) (f : FrameStatus) : (s.report f).ckB = s.ckB := rfl
@[simp] theorem State.report_frameDone (s : State) (f : FrameStatus) : (s.report f).frameDone = true := rfl
@[simp] theorem State.report_frameStatus (s : State) (f : FrameStatus) : (s.report f).frameStatus = f := rfl
@[simp] theorem State.report_buf (s : State) (f : FrameStatus) : (s.report f).buf = s.buf := rfl
@[simp] theorem State.report_inputs (s : State) (f : FrameStatus) : (s.report f).inputs = s.inputs := rfl

/-! ### toIdle -/

@[simp] theorem State.toIdle_state (s : State) : (s.toIdle).state = .idle := rfl
@[simp] theorem State.toIdle_msgId (s : State) : (s.toIdle).msgId = s.msgId := rfl
@[simp] theorem State.toIdle_msgLen (s : State) : (s.toIdle).msgLen = s.msgLen := rfl
@[simp] theorem State.toIdle_bytesNeeded (s : State) : (s.toIdle).bytesNeeded = 1 := rfl
@[simp] theorem State.toIdle_ckA (s : State) : (s.toIdle).ckA = s.ckA := rfl
@[simp] theorem State.toIdle_ckB (s : State) : (s.toIdle).ckB = s.ckB := rfl
@[simp] theorem State.toIdle_frameDone (s : State) : (s.toIdle).frameDone = s.frameDone := rfl
@[simp] theorem State.toIdle_frameStatus (s : State) : (s.toIdle).frameStatus = s.frameStatus := rfl
@[simp] theorem State.toIdle_buf (s : State) : (s.toIdle).buf = s.buf := rfl
@[simp] theorem State.toIdle_inputs (s : State) : (s.toIdle).inputs = s.inputs := rfl

/-! ### setCk -/

@[simp] theorem State.setCk_state (s : State) (acc : Byte × Byte) : (s.setCk acc).state = s.state := rfl
@[simp] theorem State.setCk_msgId (s : State) (acc : Byte × Byte) : (s.setCk acc).msgId = s.msgId := rfl
@[simp] theorem State.setCk_msgLen (s : State) (acc : Byte × Byte) : (s.setCk acc).msgLen = s.msgLen := rfl
@[simp] theorem State.setCk_bytesNeeded (s : State) (acc : Byte × Byte) : (s.setCk acc).bytesNeeded = s.bytesNeeded := rfl
@[simp] theorem State.setCk_ckA (s : State) (acc : Byte × Byte) : (s.setCk acc).ckA = acc.1 := rfl
@[simp] theorem State.setCk_ckB (s : State) (acc : Byte × Byte) : (s.setCk acc).ckB = acc.2 := rfl
@[simp] theorem State.setCk_frameDone (s : State) (acc : Byte × Byte) : (s.setCk acc).frameDone = s.frameDone := rfl
@[simp] theorem State.setCk_frameStatus (s : State) (acc : Byte × Byte) : (s.setCk acc).frameStatus = s.frameStatus := rfl
@[simp] theorem State.setCk_buf (s : State) (acc : Byte × Byte) : (s.setCk acc).buf = s.buf := rfl
@[simp] theorem State.setCk_inputs (s : State) (acc : Byte × Byte) : (s.setCk acc).inputs = s.inputs := rfl

/-! ### feedCk -/

@[simp] theorem State.feedCk_state (s : State) (c : Byte) : (s.feedCk c).state = s.state := rfl
@[simp] theorem State.feedCk_msgId (s : State) (c : Byte) : (s.feedCk c).msgId = s.msgId := rfl
@[simp] theorem State.feedCk_msgLen (s : State) (c : Byte) : (s.feedCk c).msgLen = s.msgLen := rfl
@[simp] theorem State.feedCk_bytesNeeded (s : State) (c : Byte) : (s.feedCk c).bytesNeeded = s.bytesNeeded := rfl
@[simp] theorem State.feedCk_ckA (s : State) (c : Byte) : (s.feedCk c).ckA = s.ckA + c := rfl
@[simp] theorem State.feedCk_ckB (s : State) (c : Byte) : (s.feedCk c).ckB = s.ckB + (s.ckA + c) := rfl
@[simp] theorem State.feedCk_frameDone (s : State) (c : Byte) : (s.feedCk c).frameDone = s.frameDone := rfl
@[simp] theorem State.feedCk_frameStatus (s : State) (c : Byte) : (s.feedCk c).frameStatus = s.frameStatus := rfl
@[simp] theorem State.feedCk_buf (s : State) (c : Byte) : (s.feedCk c).buf = s.buf := rfl
@[simp] theorem State.feedCk_inputs (s : State) (c : Byte) : (s.feedCk c).inputs = s.inputs := rfl

/-! ### clearCk -/

@[simp] theorem State.clearCk_state (s : State) : (s.clearCk).state = s.state := rfl
@[simp] theorem State.clearCk_msgId (s : State) : (s.clearCk).msgId = s.msgId := rfl
@[simp] theorem State.clearCk_msgLen (s : State) : (s.clearCk).msgLen = s.msgLen := rfl
@[simp] theorem State.clearCk_bytesNeeded (s : State) : (s.clearCk).bytesNeeded = s.bytesNeeded := rfl
@[simp] theorem State.clearCk_ckA (s : State) : (s.clearCk).ckA = 0 := rfl
@[simp] theorem State.clearCk_ckB (s : State) : (s.clearCk).ckB = 0 := rfl
@[simp] theorem State.clearCk_frameDone (s : State) : (s.clearCk).frameDone = s.frameDone := rfl
@[simp] theorem State.clearCk_frameStatus (s : State) : (s.clearCk).frameStatus = s.frameStatus := rfl
@[simp] theorem State.clearCk_buf (s : State) : (s.clearCk).buf = s.buf := rfl
@[simp] theorem State.clearCk_inputs (s : State) : (s.clearCk).inputs = s.inputs := rfl

/-! ### raise -/

@[simp] theorem State.raise_state (s : State) (cond : Condition) : (s.raise cond).state = .idle := rfl
@[simp] theorem State.raise_msgId (s : State) (cond : Condition) : (s.raise cond).msgId = s.msgId := rfl
@[simp] theorem State.raise_msgLen (s : State) (cond : Condition) : (s.raise cond).msgLen = s.msgLen := rfl
@[simp] theorem State.raise_bytesNeeded (s : State) (cond : Condition) : (s.raise cond).bytesNeeded = 1 := rfl
@[simp] theorem State.raise_ckA (s : State) (cond : Condition) : (s.raise cond).ckA = s.ckA := rfl
@[simp] theorem State.raise_ckB (s : State) (cond : Condition) : (s.raise cond).ckB = s.ckB := rfl
@[simp] theorem State.raise_frameDone (s : State) (cond : Condition) : (s.raise cond).frameDone = true := rfl
@[simp] theorem State.raise_frameStatus (s : State) (cond : Condition) : (s.raise cond).frameStatus = cond.status := rfl
@[simp] theorem State.raise_buf (s : State) (cond : Condition) : (s.raise cond).buf = s.buf := rfl
@[simp] theorem State.raise_inputs (s : State) (cond : Condition) : (s.raise cond).inputs = s.inputs := rfl

/-! ### emitFrameOk -/

@[simp] theorem State.emitFrameOk_state (s : State) : (s.emitFrameOk).state = .idle := rfl
@[simp] theorem State.emitFrameOk_msgId (s : State) : (s.emitFrameOk).msgId = s.msgId := rfl
@[simp] theorem State.emitFrameOk_msgLen (s : State) : (s.emitFrameOk).msgLen = s.msgLen := rfl
@[simp] theorem State.emitFrameOk_bytesNeeded (s : State) : (s.emitFrameOk).bytesNeeded = 1 := rfl
@[simp] theorem State.emitFrameOk_ckA (s : State) : (s.emitFrameOk).ckA = s.ckA := rfl
@[simp] theorem State.emitFrameOk_ckB (s : State) : (s.emitFrameOk).ckB = s.ckB := rfl
@[simp] theorem State.emitFrameOk_frameDone (s : State) : (s.emitFrameOk).frameDone = true := rfl
@[simp] theorem State.emitFrameOk_frameStatus (s : State) : (s.emitFrameOk).frameStatus = .ok := rfl
@[simp] theorem State.emitFrameOk_buf (s : State) : (s.emitFrameOk).buf = s.buf := rfl
@[simp] theorem State.emitFrameOk_inputs (s : State) : (s.emitFrameOk).inputs = s.inputs := rfl

/-! ### consume -/

@[simp] theorem State.consume_state (s : State) : (s.consume).state = s.state := rfl
@[simp] theorem State.consume_msgId (s : State) : (s.consume).msgId = s.msgId := rfl
@[simp] theorem State.consume_msgLen (s : State) : (s.consume).msgLen = s.msgLen := rfl
@[simp] theorem State.consume_bytesNeeded (s : State) : (s.consume).bytesNeeded = s.bytesNeeded := rfl
@[simp] theorem State.consume_ckA (s : State) : (s.consume).ckA = s.ckA := rfl
@[simp] theorem State.consume_ckB (s : State) : (s.consume).ckB = s.ckB := rfl
@[simp] theorem State.consume_frameDone (s : State) : (s.consume).frameDone = s.frameDone := rfl
@[simp] theorem State.consume_frameStatus (s : State) : (s.consume).frameStatus = s.frameStatus := rfl
@[simp] theorem State.consume_buf (s : State) : (s.consume).buf = s.buf := rfl
@[simp] theorem State.consume_inputs (s : State) : (s.consume).inputs = s.inputs.tail := rfl

/-! ### reset -/

@[simp] theorem State.reset_state : State.reset.state = .idle := rfl
@[simp] theorem State.reset_bytesNeeded : State.reset.bytesNeeded = 1 := rfl
@[simp] theorem State.reset_frameDone : State.reset.frameDone = false := rfl
@[simp] theorem State.reset_buf : State.reset.buf = [] := rfl

end Sys2Proof.Machine
end

