-- ==== Sys2Proof/Laws/Ops.lean ====
section
/-! SUPPORT. One lemma for each shared operation that says everything it can do. -/

namespace Sys2Proof.Machine

theorem withStore_eq {s : State} {a v : Byte} {k : State → Host.Outcome State Fault Refusal} (h : a ≠ 255#8) :
    withStore s a v k = k { s with buf := Memory.put s.buf a.toNat v } := by
  simp [withStore, Memory.store?_of_ne h]

@[simp] theorem withStore_255 {s : State} {v : Byte} {k : State → Host.Outcome State Fault Refusal} :
    withStore s 255#8 v k = .fault .noSuchBufferAddress := by
  simp [withStore]

/-- If a store goes on to a next state, its address exists, and the rest ran on the state with the byte written. -/
theorem withStore_next {s t : State} {a v : Byte} {k : State → Host.Outcome State Fault Refusal}
    (h : withStore s a v k = .next t) :
    a ≠ 255#8 ∧ k { s with buf := Memory.put s.buf a.toNat v } = .next t := by
  by_cases ha : a = 255#8
  · subst ha
    simp at h
  · exact ⟨ha, by rwa [withStore_eq ha] at h⟩

theorem withLoad_eq {s : State} {a : Byte} {k : Byte → Host.Outcome State Fault Refusal} (h : a ≠ 255#8) :
    withLoad s a k = k (Memory.byteAt s.buf a.toNat) := by
  simp [withLoad, Memory.load?_of_ne h]

/-- If a load goes on to a next state, its address exists, and the rest ran with the byte there. -/
theorem withLoad_next {s t : State} {a : Byte} {k : Byte → Host.Outcome State Fault Refusal}
    (h : withLoad s a k = .next t) : a ≠ 255#8 ∧ k (Memory.byteAt s.buf a.toNat) = .next t := by
  by_cases ha : a = 255#8
  · subst ha
    simp [withLoad] at h
  · exact ⟨ha, by rwa [withLoad_eq ha] at h⟩

/-- The address of the low checksum byte of a frame with room for a checksum exists. -/
theorem ckLo_address {len : Byte} (h : ¬ len < Config.minValidLen) : len - 2 ≠ 255#8 := by
  intro e
  simp only [Config.minValidLen] at h
  bv_omega

@[simp] theorem State.nextPorts_cons (s : State) (x : CycleIn) (xs : List CycleIn) :
    ({ s with inputs := x :: xs } : State).nextPorts = x := rfl

/-- The instruction of a cycle runs on the state as it was, the sample taken. -/
theorem step_of_decode {s : State} {i : Instr} (h : decode s.selection = .ok i) : step s = exec i s.consume := by
  simp [step, h]

/-- If a step answers a next state, some instruction was decoded, and it answered that state. -/
theorem step_next {s t : State} (h : step s = .next t) :
    ∃ i, decode s.selection = .ok i ∧ exec i s.consume = .next t := by
  unfold step at h
  split at h
  · next i hi => exact ⟨i, hi, h⟩
  · cases h

end Sys2Proof.Machine
end

