-- ==== Sys2Proof/Laws/Exec.lean ====
section
/-! SUPPORT. One spec lemma per meaning of a HAVELEN transition (the others are one update each, whose field lemmas
stand in Laws/State.lean): what it answers where its buffer address exists, and that it stops where it does not. -/

namespace Sys2Proof.Machine

theorem execHavelenData_eq {s : State} (c : Byte) (h : s.payloadIndex ≠ 255#8) :
    execHavelenData c s = .next
      { s with
        buf := Memory.put s.buf s.payloadIndex.toNat c
        ckA := s.ckA + c
        ckB := s.ckB + (s.ckA + c)
        bytesNeeded := s.bytesNeeded - 1
        frameDone := false } := by
  rw [execHavelenData, withStore_eq h]
  rfl

theorem execHavelenCklo_eq {s : State} (c : Byte) (h : s.payloadIndex ≠ 255#8) :
    execHavelenCklo c s = .next
      { s with
        buf := Memory.put s.buf s.payloadIndex.toNat c
        bytesNeeded := 1
        frameDone := false } := by
  rw [execHavelenCklo, withStore_eq h]
  rfl

/-- The status of the frame that HAVELEN.LAST completes with the byte `c`. -/
def lastStatus (s : State) (c : Byte) : FrameStatus :=
  if s.msgLen < Config.minValidLen then .lenErr
  else if le16 (Memory.byteAt s.buf (s.msgLen - 2).toNat) c = s.calcCk then .ok
  else .ckErr

theorem execHavelenLast_eq {s : State} (c : Byte) (h : s.payloadIndex ≠ 255#8) :
    execHavelenLast c s = .next
      { s with
        buf := Memory.put s.buf s.payloadIndex.toNat c
        state := .idle
        bytesNeeded := 1
        frameDone := true
        frameStatus := lastStatus s c } := by
  rw [execHavelenLast, withStore_eq h]
  by_cases hl : s.msgLen < Config.minValidLen
  · simp only [hl, if_true, lastStatus]
    rfl
  · rw [if_neg hl, withLoad_eq (ckLo_address hl)]
    by_cases hc : le16 (Memory.byteAt s.buf (s.msgLen - 2).toNat) c = s.calcCk
    · simp only [hl, hc, if_true, if_false, lastStatus]
      rfl
    · simp only [hl, hc, if_false, lastStatus]
      rfl

theorem execHavelen_fault {s : State} (c : Byte) (h : s.payloadIndex = 255#8) :
    execHavelenData c s = .fault .noSuchBufferAddress ∧ execHavelenCklo c s = .fault .noSuchBufferAddress ∧
      execHavelenLast c s = .fault .noSuchBufferAddress := by
  simp [execHavelenData, execHavelenCklo, execHavelenLast, h]

/-- Everything one instruction can do: the one next state it can answer, and for the HAVELEN transitions that the buffer
address exists. -/
def Effect (i : Instr) (s t : State) : Prop :=
  match i with
  | .idleSync _    => t = s.clearDone.goto .start1
  | .idleSkip _    => t = s.clearDone.goto .idle
  | .start1Sync _  => t = s.clearDone.goto .start2
  | .start1Fall _  => t = s.clearDone.goto .idle
  | .start2Id c    => t = (({ s.clearDone with msgId := c }).clearCk.feedCk c).goto .haveId
  | .haveidLen c   => t = (({ s.clearDone with msgLen := c, bytesNeeded := c }).feedCk c).goto .haveLen
  | .haveidLen0 _  => t = (({ s with msgLen := 0 }).feedCk 0).raise .lengthError
  | .havelenData c => s.payloadIndex ≠ 255#8 ∧
      t = { s with
            buf := Memory.put s.buf s.payloadIndex.toNat c
            ckA := s.ckA + c
            ckB := s.ckB + (s.ckA + c)
            bytesNeeded := s.bytesNeeded - 1
            frameDone := false }
  | .havelenCklo c => s.payloadIndex ≠ 255#8 ∧
      t = { s with
            buf := Memory.put s.buf s.payloadIndex.toNat c
            bytesNeeded := 1
            frameDone := false }
  | .havelenLast c => s.payloadIndex ≠ 255#8 ∧
      t = { s with
            buf := Memory.put s.buf s.payloadIndex.toNat c
            state := .idle
            bytesNeeded := 1
            frameDone := true
            frameStatus := lastStatus s c }
  | .reset         => t = { State.reset with buf := s.buf, inputs := s.inputs }
  | .nop           => t = s.clearDone
  | .ckClear       => t = s.clearCk
  | .ckStep c      => t = s.feedCk c
  | .ckValue       => t = s

/-- The inversion lemma of `exec`, and that each effect is what `exec` answers. -/
theorem exec_next_iff {i : Instr} {s t : State} : exec i s = .next t ↔ Effect i s t := by
  cases i with
  | havelenData c =>
    by_cases h : s.payloadIndex = 255#8
    · simp [exec, (execHavelen_fault c h).1, Effect, h]
    · simp only [exec, execHavelenData_eq c h, Effect, h, ne_eq, not_false_eq_true, true_and, Host.Outcome.next.injEq,
        eq_comm]
  | havelenCklo c =>
    by_cases h : s.payloadIndex = 255#8
    · simp [exec, (execHavelen_fault c h).2.1, Effect, h]
    · simp only [exec, execHavelenCklo_eq c h, Effect, h, ne_eq, not_false_eq_true, true_and, Host.Outcome.next.injEq,
        eq_comm]
  | havelenLast c =>
    by_cases h : s.payloadIndex = 255#8
    · simp [exec, (execHavelen_fault c h).2.2, Effect, h]
    · simp only [exec, execHavelenLast_eq c h, Effect, h, ne_eq, not_false_eq_true, true_and, Host.Outcome.next.injEq,
        eq_comm]
  | _ => exact ⟨fun h => (Host.Outcome.next.inj h).symm, fun h => congrArg Host.Outcome.next h.symm⟩

end Sys2Proof.Machine
end

