-- ==== Sys2Proof/Laws/PerInstr.lean ====
section
/-! SUPPORT. Statements about every instruction as syntax, one lemma per constructor. -/

namespace Sys2Proof.Laws

/-- The selection word of an instruction is four bytes, and exactly the micro-operations have none (R56). -/
def WordShape.Statement (i : Instr) : Prop :=
  match encode i with
  | some w => w.length = 4 ∧ i.isMicroOp = false
  | none   => i.isMicroOp = true

theorem WordShape.idleSync (c : Byte) : WordShape.Statement (.idleSync c) := ⟨rfl, rfl⟩
theorem WordShape.idleSkip (c : Byte) : WordShape.Statement (.idleSkip c) := ⟨rfl, rfl⟩
theorem WordShape.start1Sync (c : Byte) : WordShape.Statement (.start1Sync c) := ⟨rfl, rfl⟩
theorem WordShape.start1Fall (c : Byte) : WordShape.Statement (.start1Fall c) := ⟨rfl, rfl⟩
theorem WordShape.start2Id (c : Byte) : WordShape.Statement (.start2Id c) := ⟨rfl, rfl⟩
theorem WordShape.haveidLen (c : Byte) : WordShape.Statement (.haveidLen c) := ⟨rfl, rfl⟩
theorem WordShape.haveidLen0 (c : Byte) : WordShape.Statement (.haveidLen0 c) := ⟨rfl, rfl⟩
theorem WordShape.havelenData (c : Byte) : WordShape.Statement (.havelenData c) := ⟨rfl, rfl⟩
theorem WordShape.havelenCklo (c : Byte) : WordShape.Statement (.havelenCklo c) := ⟨rfl, rfl⟩
theorem WordShape.havelenLast (c : Byte) : WordShape.Statement (.havelenLast c) := ⟨rfl, rfl⟩
theorem WordShape.reset : WordShape.Statement .reset := ⟨rfl, rfl⟩
theorem WordShape.nop : WordShape.Statement .nop := ⟨rfl, rfl⟩
theorem WordShape.ckClear : WordShape.Statement .ckClear := rfl
theorem WordShape.ckStep (c : Byte) : WordShape.Statement (.ckStep c) := rfl
theorem WordShape.ckValue : WordShape.Statement .ckValue := rfl

end Sys2Proof.Laws
end

