-- ==== Sys2Proof/Laws/Ports.lean ====
section
/-! SUPPORT. What the output ports show: the read port after a write, and the event for each status. -/

namespace Sys2Proof.Machine

theorem State.rdData_of_ne {s : State} {a : Byte} (h : a ≠ 255#8) : s.rdData a = Memory.byteAt s.buf a.toNat := by
  simp [State.rdData, Memory.load?_of_ne h]

/-- The read port after one buffer byte was written. -/
theorem State.rdData_put {s t : State} {a c : Byte} (h : a ≠ 255#8) (ht : t.buf = Memory.put s.buf a.toNat c) (b : Byte) :
    t.rdData b = if b = a then c else s.rdData b := by
  unfold State.rdData
  rw [ht, Memory.load?_put h]
  split <;> rfl

/-- What the downstream reads of a frame with room for a checksum: its application payload, in order. -/
theorem State.readApp_eq {s : State} (h : ¬ s.msgLen < Config.minValidLen) :
    s.readApp = Memory.bytes s.buf (s.msgLen.toNat - 2) := by
  have hl := s.msgLen.isLt
  have hc : Config.minValidLen ≤ s.msgLen := by bv_omega
  have e : s.outAppLen.toNat = s.msgLen.toNat - 2 := by
    rw [State.outAppLen, State.appLen, if_pos hc]
    simp only [Config.minValidLen] at hc
    bv_omega
  unfold State.readApp Memory.bytes
  rw [e]
  refine List.map_congr_left fun i hi => ?_
  have := List.mem_range.mp hi
  have hn : (BitVec.ofNat 8 i).toNat = i := by
    rw [BitVec.toNat_ofNat]
    exact Nat.mod_eq_of_lt (by omega)
  have h5 : BitVec.ofNat 8 i ≠ 255#8 := by
    intro e
    have := congrArg BitVec.toNat e
    rw [hn, show (255#8).toNat = 255 from rfl] at this
    omega
  rw [State.rdData_of_ne h5, hn]

theorem State.event_none {s : State} (h : s.frameDone = false) : s.event = none := by
  simp [State.event, h]

theorem State.event_ok {s : State} (hd : s.frameDone = true) (hs : s.frameStatus = .ok) :
    s.event = some (.frameOk s.msgId s.msgLen s.readApp) := by
  simp [State.event, hd, hs, State.outMsgId, State.outMsgLen]

theorem State.event_ckErr {s : State} (hd : s.frameDone = true) (hs : s.frameStatus = .ckErr) :
    s.event = some (.checksumMismatch s.msgId s.msgLen s.calcCk
      (le16 (s.rdData (s.msgLen - 2)) (s.rdData (s.msgLen - 1)))) := by
  simp [State.event, hd, hs, State.outMsgId, State.outMsgLen, State.outCk]

theorem State.event_lenErr {s : State} (hd : s.frameDone = true) (hs : s.frameStatus = .lenErr) :
    s.event = some (.lengthError s.msgId s.msgLen) := by
  simp [State.event, hd, hs, State.outMsgId, State.outMsgLen]

end Sys2Proof.Machine
end

