-- ==== Sys2Proof/Laws/Stream.lean ====
section
/-! SUPPORT. What one cycle can do, and how runs are put together. -/

namespace Sys2Proof.Machine

/-- A cycle runs the instruction its ports and the registers select. -/
theorem cycle_of_decode {s : State} {x : CycleIn} {i : Instr}
    (h : decode { ports := x, state := s.state, bytesNeeded := s.bytesNeeded } = .ok i) : cycle x s = exec i s :=
  step_of_decode h

/-- A cycle with a byte runs the transition it selects. -/
theorem cycle_of_selectedBy {s : State} {c : Byte} {i : Instr} (h : SelectedBy i s.state s.bytesNeeded c) :
    cycle (.byte c) s = exec i s :=
  cycle_of_decode (decodeByte_iff.mpr h)

/-- Everything one cycle can do: a reset, an idle cycle, or the effect of the selected transition. -/
theorem cycle_cases {x : CycleIn} {s t : State} (h : cycle x s = .next t) :
    (x.rst = true ∧ Effect .reset s t) ∨
    (x.rst = false ∧ x.inValid = false ∧ Effect .nop s t) ∨
    (x.rst = false ∧ x.inValid = true ∧ ∃ i, SelectedBy i s.state s.bytesNeeded x.inData ∧ Effect i s t) := by
  obtain ⟨i, h1, h2⟩ := step_next h
  have e : Effect i s t := exec_next_iff.mp h2
  rcases decode_iff.mp h1 with ⟨hr, rfl⟩ | ⟨hr, hv, rfl⟩ | ⟨hr, hv, hs⟩
  · exact .inl ⟨hr, e⟩
  · exact .inr (.inl ⟨hr, hv, e⟩)
  · exact .inr (.inr ⟨hr, hv, i, hs, e⟩)

/-- A run is its first cycle and then the rest. -/
theorem run_cons {x : CycleIn} {xs : List CycleIn} {s t u : State} {es : List Event} (h : cycle x s = .next t)
    (h' : run xs t = .next (u, es)) : run (x :: xs) s = .next (u, t.event.toList ++ es) := by
  simp only [run, h, h']

theorem feed_nil (s : State) : feed [] s = .next (s, []) := rfl

theorem feed_cons {c : Byte} {w : List Byte} {s t u : State} {es : List Event} (h : cycle (.byte c) s = .next t)
    (h' : feed w t = .next (u, es)) : feed (c :: w) s = .next (u, t.event.toList ++ es) :=
  run_cons h h'

/-- In HaveLen with `1 ≤ bytes_needed ≤ msg_len` (R24 item 3) the payload index is an address of the buffer. -/
theorem payloadIndex_ne {s : State} (h : 1 ≤ s.bytesNeeded) (h' : s.bytesNeeded ≤ s.msgLen) :
    s.payloadIndex ≠ 255#8 := by
  intro e
  unfold State.payloadIndex at e
  bv_omega

end Sys2Proof.Machine
end

