-- ==== Sys2Proof/Tests/Slice0.lean ====
section
/-! SUPPORT. Tests. Expected values come from the spec: `95_test_vectors.md` (the vector is named at each test), R53 and
R55 for the words, and `opcode_table.json`. Then one witness for each statement with hypotheses: a concrete state and
operands that meet them together, one for each clause. -/

namespace Sys2Proof.Tests

open Sys2Proof.Machine

/-! ## Well-formedness: an ill-formed term for each check -/

theorem test_wf_idleSync_other_byte : (Instr.idleSync 0xFE).wellFormed = false := by decide
theorem test_wf_idleSkip_sync_byte : (Instr.idleSkip 0xFF).wellFormed = false := by decide
theorem test_wf_start1Sync_other_byte : (Instr.start1Sync 0x00).wellFormed = false := by decide
theorem test_wf_start1Fall_sync_byte : (Instr.start1Fall 0xFF).wellFormed = false := by decide
theorem test_wf_haveidLen_zero : (Instr.haveidLen 0x00).wellFormed = false := by decide
theorem test_wf_haveidLen0_nonzero : (Instr.haveidLen0 0x01).wellFormed = false := by decide

/-! ## Decoding: a word written out for every constructor (byte, state code of R53, `bytes_needed`, ports) -/

theorem test_decode_idleSync : decodeBytes [0xFF, 0x00, 0x01, 0x00] = .ok (.idleSync 0xFF) := by decide
theorem test_decode_idleSkip : decodeBytes [0xFE, 0x00, 0x01, 0x00] = .ok (.idleSkip 0xFE) := by decide
theorem test_decode_start1Sync : decodeBytes [0xFF, 0x01, 0x01, 0x00] = .ok (.start1Sync 0xFF) := by decide
theorem test_decode_start1Fall : decodeBytes [0x7F, 0x01, 0x01, 0x00] = .ok (.start1Fall 0x7F) := by decide
theorem test_decode_start2Id : decodeBytes [0x03, 0x02, 0x01, 0x00] = .ok (.start2Id 0x03) := by decide
theorem test_decode_haveidLen : decodeBytes [0x01, 0x03, 0x01, 0x00] = .ok (.haveidLen 0x01) := by decide
theorem test_decode_haveidLen0 : decodeBytes [0x00, 0x03, 0x01, 0x00] = .ok (.haveidLen0 0x00) := by decide
theorem test_decode_havelenData : decodeBytes [0xFF, 0x04, 0x03, 0x00] = .ok (.havelenData 0xFF) := by decide
theorem test_decode_havelenCklo : decodeBytes [0xFF, 0x04, 0x02, 0x00] = .ok (.havelenCklo 0xFF) := by decide
theorem test_decode_havelenLast : decodeBytes [0x00, 0x04, 0x01, 0x00] = .ok (.havelenLast 0x00) := by decide
/-- T6: `rst = 1`, `in_valid = 1`, `in_data = F6`. -/
theorem test_decode_reset_wins : decodeBytes [0xF6, 0x04, 0x04, 0x01] = .ok .reset := by decide
theorem test_decode_nop : decodeBytes [0x00, 0x04, 0x03, 0x02] = .ok .nop := by decide
theorem test_no_word_for_micro_operations :
    (encode .ckClear, encode (.ckStep 0x05), encode .ckValue) = (none, none, none) := by decide
theorem test_decode_reserved_state : decodeBytes [0xFF, 0x05, 0x01, 0x00] = .error .reservedStateCode := by decide
theorem test_decode_no_transition : decodeBytes [0xFF, 0x04, 0x00, 0x00] = .error .noTransition := by decide
theorem test_decode_short_word : decodeBytes [0xFF] = .error .notASelectionWord := by decide
theorem test_decode_reserved_ports : decodeBytes [0xFF, 0x00, 0x01, 0x04] = .error .reservedPortBits := by decide

/-! ## Instructions -/

/-- Whether an outcome is a next state with a property. -/
def nextIs (o : Host.Outcome State Fault Refusal) (p : State → Bool) : Bool :=
  match o with
  | .next t    => p t
  | .fault _   => false
  | .refused _ => false

/-- A state with these registers, everything else as after reset. -/
def at5 (q : SyncState) (id len need a b : Byte) (buf : Memory) : State :=
  { State.reset with state := q, msgId := id, msgLen := len, bytesNeeded := need, ckA := a, ckB := b, buf := buf }

/-- Y1. -/
theorem test_idleSync : nextIs (cycle (.byte 0xFF) State.reset) (fun t => t.state == .start1) = true := by decide
/-- Y3. -/
theorem test_idleSkip : nextIs (cycle (.byte 0xFE) State.reset) (fun t => t.state == .idle) = true := by decide
/-- Y4. -/
theorem test_start1Sync :
    nextIs (cycle (.byte 0xFF) (at5 .start1 0 0 1 0 0 [])) (fun t => t.state == .start2) = true := by decide
/-- Y6. -/
theorem test_start1Fall :
    nextIs (cycle (.byte 0x7F) (at5 .start1 0 0 1 0 0 [])) (fun t => t.state == .idle) = true := by decide
/-- H1: the accumulators are cleared first, then stepped. -/
theorem test_start2Id :
    nextIs (cycle (.byte 0x03) (at5 .start2 0 0 1 0xA7 0x64 []))
      (fun t => (t.state, t.msgId, t.ckA, t.ckB) == (.haveId, 0x03, 0x03, 0x03)) = true := by decide
/-- H4. -/
theorem test_haveidLen :
    nextIs (cycle (.byte 0x05) (at5 .haveId 3 0 1 0x03 0x03 []))
      (fun t => (t.state, t.msgLen, t.bytesNeeded, t.ckA, t.ckB) == (.haveLen, 0x05, 5, 0x08, 0x0B)) = true := by decide
/-- H6: both sums wrap. -/
theorem test_haveidLen_wraps :
    nextIs (cycle (.byte 0xFF) (at5 .haveId 3 0 1 0x03 0x03 []))
      (fun t => (t.msgLen, t.bytesNeeded, t.ckA, t.ckB) == (0xFF, 255, 0x02, 0x05)) = true := by decide
/-- H9. -/
theorem test_haveidLen0 :
    nextIs (cycle (.byte 0x00) (at5 .haveId 0xFF 7 1 0xFF 0xFF []))
      (fun t => (t.state, t.msgLen, t.ckA, t.ckB, t.frameStatus, t.event) ==
        (.idle, 0x00, 0xFF, 0xFE, .lenErr, some (.lengthError 0xFF 0x00))) = true := by decide
/-- L2. -/
theorem test_havelenData :
    nextIs (cycle (.byte 0xF6) (at5 .haveLen 3 5 4 0x0D 0x18 [(0, 0x05)]))
      (fun t => (t.bytesNeeded, t.ckA, t.ckB, t.buf) == (3, 0x03, 0x1B, [(0, 0x05), (1, 0xF6)])) = true := by decide
/-- L4. -/
theorem test_havelenCklo :
    nextIs (cycle (.byte 0x21) (at5 .haveLen 3 5 2 0x06 0x21 []))
      (fun t => (t.bytesNeeded, t.ckA, t.ckB, t.buf) == (1, 0x06, 0x21, [(3, 0x21)])) = true := by decide
/-- L7: the checksum bytes in the wrong order. -/
theorem test_havelenLast_mismatch :
    nextIs (cycle (.byte 0x21) (at5 .haveLen 3 5 1 0x06 0x21 [(3, 0x06)]))
      (fun t => (t.state, t.event) == (.idle, some (.checksumMismatch 0x03 0x05 0x0621 0x2106))) = true := by decide
/-- L5. -/
theorem test_havelenLast_ok :
    nextIs (cycle (.byte 0x06) (at5 .haveLen 3 5 1 0x06 0x21 [(0, 0x05), (1, 0xF6), (2, 0x03), (3, 0x21)]))
      (fun t => (t.state, t.event) == (.idle, some (.frameOk 0x03 0x05 [0x05, 0xF6, 0x03]))) = true := by decide
/-- T6: the byte is lost, the buffer stays. -/
theorem test_reset :
    nextIs (cycle { rst := true, inValid := true, inData := 0xF6 } (at5 .haveLen 3 5 4 0x0D 0x18 [(0, 0x05)]))
      (fun t => t == { State.reset with buf := [(0, 0x05)] }) = true := by decide
/-- T2: only `frame_done` changes. -/
theorem test_nop :
    nextIs (cycle .idle { State.reset with frameDone := true, frameStatus := .ckErr })
      (fun t => t == { State.reset with frameStatus := .ckErr }) = true := by decide
/-- P4, step 6. -/
theorem test_ckClear :
    nextIs (exec .ckClear (at5 .idle 0 0 1 0x03 0x00 [])) (fun t => (t.ckA, t.ckB) == (0, 0)) = true := by decide
/-- P4, step 5. -/
theorem test_ckStep :
    nextIs (exec (.ckStep 0x03) (at5 .idle 0 0 1 0x00 0xFD [])) (fun t => (t.ckA, t.ckB) == (0x03, 0x00)) = true := by
  decide
/-- R66: `CkValue(0x06, 0x21) = 0x0621`. -/
theorem test_ckValue :
    nextIs (exec .ckValue (at5 .idle 0 0 1 0x06 0x21 [])) (fun t => t.outCk == 0x0621) = true := by decide

/-- K6, K9 and K11. -/
theorem test_checksum : (checksum [0x02, 0x01], checksum [0x03, 0x05, 0x05, 0xF6, 0x03],
    checksum [0x61, 0x62, 0x63, 0x64, 0x65]) = (0x0305, 0x0621, 0xEFC3) := by decide
/-- K20 and K23. -/
theorem test_verify : (verify 0x03 0x05 [0x05, 0xF6, 0x03] 0x21 0x06, verify 0x03 0x05 [0x05, 0xF6, 0x03] 0x06 0x21) =
    (true, false) := by decide
/-- Frame F1 of `95_test_vectors.md`. -/
theorem test_frame : frame 0x01 [0x10, 0x20, 0x30, 0x40] =
    [0xFF, 0xFF, 0x01, 0x06, 0x10, 0x20, 0x30, 0x40, 0x64, 0xA7] := by decide
/-- R29: `rd_addr = 255` reads `0x00`. -/
theorem test_rdData_255 : State.reset.rdData 255 = 0 := by decide

/-! ## Witnesses -/

/-- Frame F3 before its first payload byte. -/
def first3 : State := at5 .haveLen 3 5 5 0x08 0x0B []

/-- Frame F3 before its last byte. -/
def last3 : State := at5 .haveLen 3 5 1 0x06 0x21 [(0, 0x05), (1, 0xF6), (2, 0x03), (3, 0x21)]

theorem witness_inv_reset : Inv State.reset :=
  { needsOne := by decide, needsSome := by decide, ckOfId := by decide, ckOfFrame := by decide, doneIdle := by decide
    bufWf := by decide }

theorem witness_inv_first3 : Inv first3 :=
  { needsOne := by decide, needsSome := by decide, ckOfId := by decide, ckOfFrame := by decide, doneIdle := by decide
    bufWf := by decide }

theorem witness_inv_last3 : Inv last3 :=
  { needsOne := by decide, needsSome := by decide, ckOfId := by decide, ckOfFrame := by decide, doneIdle := by decide
    bufWf := by decide }

theorem witness_inv_start1 : Inv (at5 .start1 0 0 1 0 0 []) :=
  { needsOne := by decide, needsSome := by decide, ckOfId := by decide, ckOfFrame := by decide, doneIdle := by decide
    bufWf := by decide }

/-- CycleFollowsThePorts, one cycle for each clause, with `witness_inv_reset`; the same reset cycle for ResetCycleResult and, with
`witness_inv_last3`, for ResetForgetsTheFrameInProgress. -/
theorem witness_cycles :
    ({ rst := true, inValid := true, inData := 0xF6 } : CycleIn).rst = true ∧
    ((CycleIn.byte 0xFF).rst = false ∧ (CycleIn.byte 0xFF).inValid = true ∧
      decodeByte State.reset.state State.reset.bytesNeeded 0xFF = .ok (.idleSync 0xFF)) ∧
    (CycleIn.idle.rst = false ∧ CycleIn.idle.inValid = false) := by decide

/-- StepRunsTheDecodedInstruction: a byte queued, and nothing queued. -/
theorem witness_decoded :
    decode { ports := [CycleIn.byte 0xFF].headD CycleIn.idle, state := .idle, bytesNeeded := 1 } = .ok (.idleSync 0xFF) ∧
    decode { ports := List.headD [] CycleIn.idle, state := .idle, bytesNeeded := 1 } = .ok .nop := by decide

/-- FetchWordIsRunNext: a table word of 8 bits, and a whole selection word. -/
theorem witness_fetchWord : decodeTableWord 8 0xFF = some (.idleSync 0xFF) ∧
    decodeTableWord 32 0x00030407 = some (.havelenData 0x07) := by decide

/-- EachSampleIsConsumedOnce, EveryStepKeepsTheInvariants (with `witness_inv_reset`). -/
theorem witness_step : nextIs (step State.reset) (fun _ => true) = true := by decide

/-- OutputPortsShowTheRegisters: the boundary lengths and the last address. -/
theorem witness_ports : (2 ≤ (at5 .idle 0 2 1 0 0 []).msgLen) ∧ ((at5 .idle 0 1 1 0 0 []).msgLen < 2) ∧
    ((254 : Byte) ≠ 255) ∧ (State.reset.rdData 255 = 0) := by decide

/-- ExactlyOneTableRowIsSelected: the clauses where they meet, `bytes_needed` 1 and 0 in HaveLen. -/
theorem witness_table : ¬ (SyncState.haveLen = .haveLen ∧ (1 : Byte) = 0) ∧ ¬ (SyncState.idle = .haveLen ∧ (0 : Byte) = 0) ∧
    (SyncState.haveLen = .haveLen ∧ (0 : Byte) = 0) := by decide

/-- StateCodesAreOneToOne: the first reserved code, and the last that is none. -/
theorem witness_codes : (4 : Byte) < 5 ∧ stateOfCode 5 = none ∧ stateOfCode 4 = some .haveLen := by decide

/-- DecodeOfEncodeGivesTheInstruction: a well-formed instruction for each clause. -/
theorem witness_encode : ((Instr.haveidLen 0xFF).wellFormed = true ∧ (Instr.haveidLen 0xFF).isMicroOp = false) ∧
    (Instr.ckValue.wellFormed = true ∧ Instr.ckValue.isMicroOp = true) := by decide

/-- DecodedInstructionsAreWellFormed. -/
theorem witness_decodeBytes : decodeBytes [0xFF, 0, 1, 0] = .ok (.idleSync 0xFF) := by decide

/-- SyncDetectorTransitions: a state and a byte for each selection. -/
theorem witness_sync : State.reset.state = .idle ∧ (at5 .start1 0 0 1 0 0 []).state = .start1 ∧ (0xFE : Byte) ≠ 0xFF := by
  decide

/-- Start2IdStoresTheIdentifier, HaveidLenStoresTheLength (the smallest length), HaveidLen0DropsTheFrame. -/
theorem witness_header : (at5 .start2 0 0 1 0 0 []).state = .start2 ∧
    ((1 : Byte) ≠ 0 ∧ (at5 .haveId 3 0 1 3 3 []).state = .haveId ∧
      nextIs (exec (.haveidLen 1) (at5 .haveId 3 0 1 3 3 [])) (fun _ => true) = true) ∧
    nextIs (exec (.haveidLen0 0) (at5 .haveId 3 0 1 3 3 [])) (fun _ => true) = true := by decide

/-- HavelenDataStoresAndFeeds at its smallest counter, which is also its smallest length. -/
theorem witness_data : 2 < (at5 .haveLen 0 3 3 0 0 []).bytesNeeded ∧
    (at5 .haveLen 0 3 3 0 0 []).bytesNeeded ≤ (at5 .haveLen 0 3 3 0 0 []).msgLen ∧
    (at5 .haveLen 0 3 3 0 0 []).state = .haveLen := by decide

/-- HavelenCkloStoresOnly at the smallest valid length. -/
theorem witness_cklo : (at5 .haveLen 0 2 2 0 0 []).bytesNeeded = 2 ∧ 2 ≤ (at5 .haveLen 0 2 2 0 0 []).msgLen ∧
    (at5 .haveLen 0 2 2 0 0 []).state = .haveLen := by decide

/-- HavelenLastDecidesTheFrame: length 1; length 2 with equal checksums; and length 2 with different ones. -/
theorem witness_last :
    ((at5 .haveLen 0 1 1 0 0 []).bytesNeeded = 1 ∧ (at5 .haveLen 0 1 1 0 0 []).msgLen ≠ 0 ∧
      (at5 .haveLen 0 1 1 0 0 []).msgLen < 2 ∧
      nextIs (exec (.havelenLast 0xEE) (at5 .haveLen 0 1 1 0 0 [])) (fun _ => true) = true) ∧
    ((at5 .haveLen 7 2 1 0x09 0x10 [(0, 0x10)]).bytesNeeded = 1 ∧
      2 ≤ (at5 .haveLen 7 2 1 0x09 0x10 [(0, 0x10)]).msgLen ∧
      Memory.load? [(0, 0x10)] (2 - 2) = some 0x10 ∧ (0x09 : Byte) ++ (0x10 : Byte) = (0x09 : Byte) ++ (0x10 : Byte) ∧
      (0x08 : Byte) ++ (0x10 : Byte) ≠ (0x09 : Byte) ++ (0x10 : Byte)) := by decide

/-- MissingBufferAddressFaults: an index of 255, and the index 254 beside it. -/
theorem witness_missing_address : Instr.havelenLast 0 ∈ [Instr.havelenData 0, .havelenCklo 0, .havelenLast 0] ∧
    (at5 .haveLen 0 0 1 0 0 []).msgLen - (at5 .haveLen 0 0 1 0 0 []).bytesNeeded = 255 ∧
    (at5 .haveLen 0 255 1 0 0 []).msgLen - (at5 .haveLen 0 255 1 0 0 []).bytesNeeded = 254 := by decide

/-- ChecksumUnitOperations and RaisingReportsAndReturnsToIdle: both checksum bytes stand in the buffer. -/
theorem witness_checksum_bytes : 2 ≤ last3.msgLen ∧ Memory.load? last3.buf (last3.msgLen - 2) = some 0x21 ∧
    nextIs (exec (.havelenLast 0x06) last3) (fun _ => true) = true ∧
    Memory.load? [(3, 0x21), (4, 0x07)] (last3.msgLen - 1) = some 0x07 := by decide

/-- ChecksumUnitOperations and InstructionsWriteOnlyTheirRegisters: each instruction named there answers a next state
of frame F3, before its first payload byte. -/
theorem witness_frames : ∀ i ∈ [Instr.idleSync 5, .idleSkip 5, .start1Sync 5, .start1Fall 5, .start2Id 5, .haveidLen 5,
    .haveidLen0 5, .havelenData 5, .havelenCklo 5, .havelenLast 5, .reset, .nop, .ckClear, .ckStep 5, .ckValue],
    nextIs (exec i first3) (fun _ => true) = true := by decide

/-- ChecksumUnitOperations: a selection that decodes; and the byte of InstructionsWriteOnlyTheirRegisters that is not
the stored one. -/
theorem witness_selection : decode { ports := .idle, state := .idle, bytesNeeded := 1 } = .ok .nop ∧
    (1 : Byte) ≠ first3.msgLen - first3.bytesNeeded := by decide

/-- TransitionGraphIsComplete, OnlyHavelenStepsWriteTheBuffer (with `witness_inv_first3`) and OnlyCompletingStepsReport:
a cycle of each kind that answers a next state, from Idle and from HaveLen. -/
theorem witness_graph :
    nextIs (cycle .reset first3) (fun _ => true) = true ∧ nextIs (cycle .idle first3) (fun _ => true) = true ∧
    (first3.state = .haveLen ∧ nextIs (cycle (.byte 0xFF) first3) (fun _ => true) = true) ∧
    (State.reset.state = .idle ∧ nextIs (cycle (.byte 0xFF) State.reset) (fun _ => true) = true) ∧
    nextIs (cycle (.byte 0xFF) (at5 .start1 0 0 1 0 0 [])) (fun _ => true) = true ∧
    nextIs (cycle (.byte 0xFF) (at5 .start2 0 0 1 0 0 [])) (fun _ => true) = true ∧
    nextIs (cycle (.byte 0x00) (at5 .haveId 0 0 1 0 0 [])) (fun _ => true) = true := by decide

/-- OnlyCompletingStepsReport: a good frame, and a frame of length 1. -/
theorem witness_events :
    nextIs (cycle (.byte 0x06) last3) (fun t => t.event == some (.frameOk 3 5 [0x05, 0xF6, 0x03])) = true ∧
    nextIs (cycle (.byte 0xEE) (at5 .haveLen 9 1 1 0x0A 0x13 [])) (fun t => t.event == some (.lengthError 9 1)) = true := by
  decide

/-- BufferReadAfterWrite: a store at the last address, and two buffers in canonical form with the same cells. -/
theorem witness_buffer : Memory.store? [(0, 1)] 254 7 = some [(0, 1), (254, 7)] ∧ Memory.Wf [(0, 1)] ∧
    Memory.Wf [(0, 1), (254, 7)] := by decide

/-- OneChangedByteIsDetected. -/
theorem witness_changed_byte : (0xF6 : Byte) ≠ 0xF7 := by decide

/-- RunningChecksumEqualsVerify, with `witness_inv_last3`. -/
theorem witness_verify : last3.state = .haveLen ∧ last3.bytesNeeded = 1 ∧ 2 ≤ last3.msgLen := by decide

/-- ValidFramesAreExactlyFrames: the smallest frame, F7, has the form; and an application payload that can be framed. -/
theorem witness_validFrame : ValidFrame [0xFF, 0xFF, 0x07, 0x02, 0x10, 0x09] ∧ ([0xAA] : List Byte).length ≤ 253 :=
  ⟨⟨by decide, rfl, rfl, 0x07, 0x02, 0x10, 0x09, rfl, rfl, by decide, by decide, rfl, rfl, by decide⟩, by decide⟩

/-- ReachableStatesMeetTheInvariants: a state after one step, not only the reset state. -/
theorem witness_reachable : ∃ t, Reachable t ∧ t.state = .start1 :=
  ⟨_, .step (.reset [.byte 0xFF]) rfl, rfl⟩

/-- IdleIsReachedWithin258Bytes, with `witness_inv_start1`. -/
theorem witness_258 : (at5 .start1 0 0 1 0 0 []).state ≠ .idle ∧ 258 ≤ (List.replicate 258 (0 : Byte)).length :=
  ⟨by decide, by rw [List.length_replicate]⟩

/-- IdleCyclesAreInvisible, with `witness_inv_reset`. -/
theorem witness_no_reset : ∀ x ∈ [CycleIn.byte 0xFF, .idle, .byte 0x03], x.rst = false := by decide

/-- PayloadIsTakenByCountAlone, with `witness_inv_first3`: fewer bytes than needed, and all of them. -/
theorem witness_payload : first3.state = .haveLen ∧ ([0x05] : List Byte).length < first3.bytesNeeded.toNat ∧
    ([0x05, 0xF6, 0x03, 0x21, 0x06] : List Byte).length = first3.bytesNeeded.toNat := by decide

/-- EveryFrameHasThisOutcome and FrameConsumesFourPlusLength, with `witness_inv_reset`: lengths 0, 1 and 2. -/
theorem witness_outcome : State.reset.state = .idle ∧ ([] : List Byte).length = (0 : Byte).toNat ∧
    ([0xEE] : List Byte).length = (1 : Byte).toNat ∧ ([0x10, 0x09] : List Byte).length = (2 : Byte).toNat ∧
    0 < 4 + (0 : Byte).toNat ∧ 5 < 4 + (2 : Byte).toNat := by decide

/-- ValidFrameDecodes, DamagedChecksumDropsOneFrame, BackToBackFramesDecode and StraySyncByteMisframes, with
`witness_inv_reset`. -/
theorem witness_frames_of_the_laws : State.reset.state = .idle ∧ ([0x05, 0xF6, 0x03] : List Byte).length ≤ 253 ∧
    (1 : Word16) ≠ 0 ∧ (∀ f ∈ [((7 : Byte), ([] : List Byte)), (0, [1])], f.2.length ≤ 253) ∧ (7 : Byte) ≠ 0 := by decide

/-- CleanGarbageIsSkipped: the garbage of vector Y8, with `witness_inv_reset`. -/
theorem witness_garbage : CleanGarbage [0x12, 0xFF, 0x34] := by
  refine ⟨fun i => ?_, by decide⟩
  match i with
  | 0 => decide
  | 1 => decide
  | 2 => decide
  | i + 3 => simp

/-- BufferBytesOutliveTheNextHeader and HeaderRegistersOutliveTheSyncWord at the end of their windows. -/
theorem witness_windows : State.reset.state = .idle ∧ 0 < 255 ∧
    ([0xFF, 0xFF, 0x07, 0x03] : List Byte).length ≤ 4 + 0 ∧ ([0xFF, 0xFF, 0x07] : List Byte).length ≤ 3 ∧
    ([0xFF, 0xFF] : List Byte).length ≤ 2 := by decide

end Sys2Proof.Tests
end

namespace Sys2Proof.Proofs
open Sys2Proof Sys2Proof.Machine

/-- R31: a buffer that lists no cell reads as `BUF_RESET` at every address that exists. -/
theorem load?_nil_of_ne {a : Byte} (h : a ≠ 255#8) :
    Memory.load? [] a = some (Config.bufReset a.toNat) := by
  rw [Memory.load?_of_ne h, Memory.byteAt_nil]

/-- Settles O1: the registers are read off `State.reset`, and its buffer lists no cell. -/
theorem resetLeavesTheseValues : Obligations.ResetLeavesTheseValues := by
  unfold Obligations.ResetLeavesTheseValues
  refine ⟨rfl, rfl, rfl, rfl, rfl, rfl, rfl, rfl, fun a ha => ?_⟩
  have exists_addr : a ≠ 255#8 := (Memory.depth_iff a).mp (Nat.lt_succ_of_le ha)
  exact load?_nil_of_ne exists_addr

end Sys2Proof.Proofs

namespace Sys2Proof.Proofs
open Sys2Proof Sys2Proof.Machine

/-- R30: whichever transition HaveLen selects, its store is at the payload index, an address that exists. -/
theorem effect_buf_of_haveLen {i : Instr} {s t : State} {n c : Byte} (hs : SelectedBy i .haveLen n c)
    (he : Effect i s t) : s.payloadIndex ≠ 255#8 ∧ t.buf = Memory.put s.buf s.payloadIndex.toNat c := by
  cases i with
  | havelenData d | havelenCklo d | havelenLast d =>
    obtain ⟨rfl, -, -⟩ := hs
    obtain ⟨addr_exists, rfl⟩ := he
    exact ⟨addr_exists, rfl⟩
  | _ => simp [SelectedBy] at hs

/-- R30: a transition that another state than HaveLen selects writes no buffer byte. -/
theorem effect_buf_of_ne_haveLen {i : Instr} {s t : State} {q : SyncState} {n c : Byte} (hq : q ≠ .haveLen)
    (hs : SelectedBy i q n c) (he : Effect i s t) : t.buf = s.buf := by
  cases i with
  | havelenData d | havelenCklo d | havelenLast d =>
    obtain ⟨-, in_haveLen, -⟩ := hs
    exact absurd in_haveLen hq
  | _ =>
    cases he
    rfl

/-- A byte accepted in HaveLen is what its payload index reads as afterwards; every other address reads as before. -/
theorem load?_of_cycle_haveLen {s t : State} {x : CycleIn} (h : cycle x s = .next t) (hq : s.state = .haveLen)
    (hr : x.rst = false) (hv : x.inValid = true) (a : Byte) :
    Memory.load? t.buf a = if a = s.payloadIndex then some x.inData else Memory.load? s.buf a := by
  obtain ⟨hr', -⟩ | ⟨-, hv', -⟩ | ⟨-, -, i, hs, he⟩ := cycle_cases h
  · simp [hr] at hr'
  · simp [hv] at hv'
  · obtain ⟨addr_exists, hbuf⟩ := effect_buf_of_haveLen (hq ▸ hs) he
    rw [hbuf, Memory.load?_put addr_exists]

/-- Resets, idle cycles and bytes accepted outside HaveLen leave the buffer. -/
theorem buf_of_cycle_no_payload_byte {s t : State} {x : CycleIn} (h : cycle x s = .next t)
    (hn : ¬ (s.state = .haveLen ∧ x.rst = false ∧ x.inValid = true)) : t.buf = s.buf := by
  obtain ⟨-, rfl⟩ | ⟨-, -, rfl⟩ | ⟨hr, hv, i, hs, he⟩ := cycle_cases h
  · rfl
  · rfl
  · exact effect_buf_of_ne_haveLen (fun hq => hn ⟨hq, hr, hv⟩) hs he

/-- R24 item 3 in HaveLen puts the payload index inside the payload. -/
theorem payloadIndex_lt_msgLen {s : State} (hinv : Inv s) (hq : s.state = .haveLen) : s.payloadIndex < s.msgLen := by
  obtain ⟨one_le, le_len⟩ := hinv.needsSome hq
  unfold State.payloadIndex
  bv_omega

/-- Settles O27, by the three kinds of cycle and, for an accepted byte, the instruction its state selects. -/
theorem onlyHavelenStepsWriteTheBuffer : Obligations.OnlyHavelenStepsWriteTheBuffer := by
  unfold Obligations.OnlyHavelenStepsWriteTheBuffer
  intro s t x h
  exact ⟨load?_of_cycle_haveLen h, buf_of_cycle_no_payload_byte h, payloadIndex_lt_msgLen⟩

end Sys2Proof.Proofs

namespace Sys2Proof.Proofs
open Sys2Proof Sys2Proof.Machine

/-! ## The wire format (`30_encoding.md`, section 1) -/

/-- A sequence of bytes laid out as a frame is (R45 to R48): two sync bytes or what stands in their place, identifier,
length, application payload, and two checksum bytes. -/
def wireLayout (x y id len : Byte) (app : List Byte) (lo hi : Byte) : List Byte :=
  x :: y :: id :: len :: (app ++ [lo, hi])

@[simp] theorem length_wireLayout (x y id len : Byte) (app : List Byte) (lo hi : Byte) :
    (wireLayout x y id len app lo hi).length = app.length + 6 := by
  simp [wireLayout]

/-- What stands between the length byte and the two last bytes is the application payload. -/
@[simp] theorem app_wireLayout (x y id len : Byte) (app : List Byte) (lo hi : Byte) :
    ((wireLayout x y id len app lo hi).drop 4).take ((wireLayout x y id len app lo hi).length - 6) = app := by
  rw [length_wireLayout, Nat.add_sub_cancel]
  exact List.take_left

/-- The byte before the last one is the first checksum byte. -/
@[simp] theorem ckLo_wireLayout (x y id len : Byte) (app : List Byte) (lo hi : Byte) :
    (wireLayout x y id len app lo hi)[(wireLayout x y id len app lo hi).length - 2]? = some lo := by
  simp [wireLayout]

/-- The last byte is the second checksum byte. -/
@[simp] theorem ckHi_wireLayout (x y id len : Byte) (app : List Byte) (lo hi : Byte) :
    (wireLayout x y id len app lo hi)[(wireLayout x y id len app lo hi).length - 1]? = some hi := by
  simp [wireLayout]

/-- Every sequence of at least six bytes has the layout. -/
theorem exists_wireLayout {w : List Byte} (h : 6 ≤ w.length) :
    ∃ x y id len app lo hi, w = wireLayout x y id len app lo hi := by
  match w, h with
  | x :: y :: id :: len :: rest, h =>
    have two_left : (rest.drop (rest.length - 2)).length = 2 := by
      simp only [List.length_cons] at h
      rw [List.length_drop]
      omega
    obtain ⟨lo, hi, tail⟩ := List.length_eq_two.mp two_left
    exact ⟨x, y, id, len, rest.take (rest.length - 2), lo, hi, by rw [wireLayout, ← tail, List.take_append_drop]⟩

/-- R49 in terms of the layout. -/
theorem validFrame_wireLayout_iff {x y id len : Byte} {app : List Byte} {lo hi : Byte} :
    ValidFrame (wireLayout x y id len app lo hi) ↔
      x = Config.syncByte ∧ y = Config.syncByte ∧ len.toNat = app.length + 2 ∧
        le16 lo hi = checksum (id :: len :: app) := by
  unfold ValidFrame
  rw [app_wireLayout, ckLo_wireLayout, ckHi_wireLayout, length_wireLayout]
  constructor
  · rintro ⟨-, hx, hy, id', len', lo', hi', hid, hlen, -, hcount, hlo, hhi, hck⟩
    cases hx; cases hy; cases hid; cases hlen; cases hlo; cases hhi
    exact ⟨rfl, rfl, by omega, hck⟩
  · rintro ⟨rfl, rfl, hlen, hck⟩
    have room : Config.minValidLen ≤ len := by
      rw [BitVec.le_def, hlen]
      exact Nat.le_add_left 2 _
    exact ⟨by omega, rfl, rfl, id, len, lo, hi, rfl, rfl, room, by omega, rfl, rfl, hck⟩

/-- `Frame` (R50) has the layout. -/
theorem frame_eq_wireLayout (id : Byte) (app : List Byte) :
    frame id app = wireLayout Config.syncByte Config.syncByte id (frameLen app) app
      ((frameCk id app).extractLsb' 0 8) ((frameCk id app).extractLsb' 8 8) := rfl

theorem le16_inj {a b c d : Byte} (h : le16 a b = le16 c d) : a = c ∧ b = d :=
  (ckValueOf_inj h).symm

/-- What `Frame` builds is valid (R50). -/
theorem validFrame_frame (id : Byte) {app : List Byte} (h : app.length ≤ 253) : ValidFrame (frame id app) := by
  rw [frame_eq_wireLayout, validFrame_wireLayout_iff]
  exact ⟨rfl, rfl, frameLen_toNat h, le16_extract _⟩

/-- The length byte determines how long the application payload is, and so both checksum bytes: a valid layout is the
`Frame` of its identifier and its application payload (R50). -/
theorem wireLayout_eq_frame {x y id len : Byte} {app : List Byte} {lo hi : Byte}
    (h : ValidFrame (wireLayout x y id len app lo hi)) :
    app.length ≤ 253 ∧ wireLayout x y id len app lo hi = frame id app := by
  obtain ⟨rfl, rfl, hlen, hck⟩ := validFrame_wireLayout_iff.mp h
  have short : app.length ≤ 253 := by
    have := len.isLt
    omega
  have len_eq : len = frameLen app := BitVec.eq_of_toNat_eq (hlen.trans (frameLen_toNat short).symm)
  subst len_eq
  have ck_eq : le16 lo hi = frameCk id app := hck
  obtain ⟨rfl, rfl⟩ := le16_inj (ck_eq.trans (le16_extract _).symm)
  exact ⟨short, rfl⟩

/-- Settles O32: both directions through the layout that every sequence of at least six bytes has. -/
theorem validFramesAreExactlyFrames : Obligations.ValidFramesAreExactlyFrames := by
  unfold Obligations.ValidFramesAreExactlyFrames
  refine ⟨fun id app h => ⟨validFrame_frame id h, ?_⟩, fun w h => ?_⟩
  · rw [frame_eq_wireLayout, length_wireLayout]
  · have six_le : 6 ≤ w.length := h.1
    obtain ⟨x, y, id, len, app, lo, hi, rfl⟩ := exists_wireLayout six_le
    rw [app_wireLayout]
    exact wireLayout_eq_frame h

end Sys2Proof.Proofs

namespace Sys2Proof.Proofs
open Sys2Proof Sys2Proof.Machine

/-! ## Every step has a next state, which meets R24 again (R60) -/

/-- Where no header or payload is being taken, R24 asks for the counter, the pulse and the buffer alone. -/
theorem inv_of_outside_frame {t : State} (hid : t.state ≠ .haveId) (hlen : t.state ≠ .haveLen)
    (need : t.bytesNeeded = 1) (done : t.frameDone = true → t.state = .idle) (wf : Memory.Wf t.buf) : Inv t where
  needsOne _ := need
  needsSome h := absurd h hlen
  ckOfId h := absurd h hid
  ckOfFrame h := absurd h hlen
  doneIdle := done
  bufWf := wf

/-- R24 does not speak of the queue of samples. -/
theorem inv_consume {s : State} (h : Inv s) : Inv s.consume := { h with }

/-- A write at an address that exists keeps the buffer's canonical form. -/
theorem wf_put_of_ne {m : Memory} (h : Memory.Wf m) {a : Byte} (ha : a ≠ 255#8) (v : Byte) :
    Memory.Wf (Memory.put m a.toNat v) :=
  Memory.wf_put h ((Memory.depth_iff a).mpr ha) v

/-- R26 without wrapping: `bytes_needed` does not exceed `msg_len`. -/
theorem payloadIndex_toNat {s : State} (h : s.bytesNeeded ≤ s.msgLen) :
    s.payloadIndex.toNat = s.msgLen.toNat - s.bytesNeeded.toNat := by
  unfold State.payloadIndex
  bv_omega

/-- R24 item 5 until a checksum byte is stored: the accumulators cover every payload byte so far. -/
theorem coveredCount_of_two_le {s : State} (h : 2 ≤ s.bytesNeeded) (h' : s.bytesNeeded ≤ s.msgLen) :
    s.coveredCount = s.payloadIndex.toNat := by
  rw [payloadIndex_toNat h', State.coveredCount]
  bv_omega

/-- R24 item 5 over one covered payload byte. -/
theorem ckFeed_bytes_put_succ (acc : Byte × Byte) (id len : Byte) (m : Memory) (n : Nat) (c : Byte) :
    ckFeed acc (id :: len :: Memory.bytes (Memory.put m n c) (n + 1)) =
      ckStepOf (ckFeed acc (id :: len :: Memory.bytes m n)) c := by
  rw [Memory.bytes_succ, Memory.bytes_put_of_le m le_rfl, Memory.byteAt_put, if_pos rfl, ← List.cons_append,
    ← List.cons_append, ckFeed_append, ckFeed_cons, ckFeed_nil]

/-- START2.ID (R79) restarts the accumulators: R24 item 4. -/
theorem inv_of_effect_start2Id {s t : State} {c : Byte} (hinv : Inv s) (hq : s.state = .start2)
    (he : Effect (.start2Id c) s t) : Inv t := by
  cases he
  exact {
    needsOne := fun _ => hinv.needsOne (by simp [hq])
    needsSome := nofun
    ckOfId := fun _ => by simp
    ckOfFrame := nofun
    doneIdle := nofun
    bufWf := hinv.bufWf }

/-- HAVEID.LEN (R80) feeds the length, and no payload byte is covered yet: R24 item 5 from item 4. -/
theorem inv_of_effect_haveidLen {s t : State} {c : Byte} (hinv : Inv s) (hq : s.state = .haveId) (hc : c ≠ 0)
    (he : Effect (.haveidLen c) s t) : Inv t := by
  obtain ⟨ha, hb⟩ := hinv.ckOfId hq
  cases he
  exact {
    needsOne := nofun
    needsSome := fun _ => ⟨(by bv_omega : 1 ≤ c), BitVec.le_refl c⟩
    ckOfId := nofun
    ckOfFrame := fun _ => by simp [State.coveredCount, Memory.bytes, ckStepOf, ha, hb]
    doneIdle := nofun
    bufWf := hinv.bufWf }

/-- HAVELEN.DATA (R84) covers exactly the byte it stores. -/
theorem inv_of_effect_havelenData {s t : State} {c : Byte} (hinv : Inv s) (hq : s.state = .haveLen)
    (hn : 2 < s.bytesNeeded) (he : Effect (.havelenData c) s t) : Inv t := by
  obtain ⟨-, le_len⟩ := hinv.needsSome hq
  obtain ⟨addr_exists, ht⟩ := he
  have state_eq : t.state = .haveLen := by rw [ht]; exact hq
  have needs : t.bytesNeeded = s.bytesNeeded - 1 := by rw [ht]
  have len_eq : t.msgLen = s.msgLen := by rw [ht]
  have bounds : 2 ≤ t.bytesNeeded ∧ t.bytesNeeded ≤ t.msgLen := by
    rw [needs, len_eq]
    bv_omega
  have covered_before := coveredCount_of_two_le (by bv_omega) le_len
  have covered_after : t.coveredCount = s.payloadIndex.toNat + 1 := by
    rw [coveredCount_of_two_le bounds.1 bounds.2, payloadIndex_toNat bounds.2, payloadIndex_toNat le_len, needs, len_eq]
    bv_omega
  exact {
    needsOne := fun h => absurd state_eq h
    needsSome := fun _ => ⟨by bv_omega, bounds.2⟩
    ckOfId := fun h => nomatch state_eq.symm.trans h
    ckOfFrame := fun _ => by
      rw [covered_after, ht, ckFeed_bytes_put_succ, ← covered_before, ← hinv.ckOfFrame hq]
      rfl
    doneIdle := fun h => by simp [ht] at h
    bufWf := ht ▸ wf_put_of_ne hinv.bufWf addr_exists c }

/-- HAVELEN.CKLO (R85) stores a byte that the checksum does not cover, above those it covers. -/
theorem inv_of_effect_havelenCklo {s t : State} {c : Byte} (hinv : Inv s) (hq : s.state = .haveLen)
    (hn : s.bytesNeeded = 2) (he : Effect (.havelenCklo c) s t) : Inv t := by
  obtain ⟨one_le, le_len⟩ := hinv.needsSome hq
  obtain ⟨addr_exists, ht⟩ := he
  have state_eq : t.state = .haveLen := by rw [ht]; exact hq
  have covered_before := coveredCount_of_two_le (BitVec.le_of_eq hn.symm) le_len
  have covered_after : t.coveredCount = s.payloadIndex.toNat := by
    rw [payloadIndex_toNat le_len, State.coveredCount, ht]
    bv_omega
  exact {
    needsOne := fun h => absurd state_eq h
    needsSome := fun _ => by
      rw [ht]
      exact ⟨BitVec.le_refl 1, BitVec.le_trans one_le le_len⟩
    ckOfId := fun h => nomatch state_eq.symm.trans h
    ckOfFrame := fun _ => by
      rw [covered_after, ht, Memory.bytes_put_of_le _ le_rfl, ← covered_before]
      exact hinv.ckOfFrame hq
    doneIdle := fun h => by simp [ht] at h
    bufWf := ht ▸ wf_put_of_ne hinv.bufWf addr_exists c }

/-- Every transition keeps the invariants of R24 where the state, the counter and the byte select it. -/
theorem inv_of_effect_of_selectedBy {i : Instr} {s t : State} {c : Byte} (hinv : Inv s)
    (hs : SelectedBy i s.state s.bytesNeeded c) (he : Effect i s t) : Inv t := by
  cases i with
  | idleSync d | idleSkip d | start1Sync d | start1Fall d =>
    obtain ⟨-, hq, -⟩ := hs
    cases he
    exact inv_of_outside_frame nofun nofun (hinv.needsOne (by simp [hq])) nofun hinv.bufWf
  | start2Id d => exact inv_of_effect_start2Id hinv hs.2 he
  | haveidLen d =>
    obtain ⟨rfl, hq, hc⟩ := hs
    exact inv_of_effect_haveidLen hinv hq hc he
  | haveidLen0 d =>
    cases he
    exact inv_of_outside_frame nofun nofun rfl (fun _ => rfl) hinv.bufWf
  | havelenData d =>
    obtain ⟨-, hq, hn⟩ := hs
    exact inv_of_effect_havelenData hinv hq hn he
  | havelenCklo d =>
    obtain ⟨-, hq, hn⟩ := hs
    exact inv_of_effect_havelenCklo hinv hq hn he
  | havelenLast d =>
    obtain ⟨addr_exists, rfl⟩ := he
    exact inv_of_outside_frame nofun nofun rfl (fun _ => rfl) (wf_put_of_ne hinv.bufWf addr_exists d)
  | reset | nop | ckClear | ckStep _ | ckValue => exact hs.elim

/-- The step lemma of R24: whatever a cycle selects, RESET and NOP among it (R92), keeps the invariants. -/
theorem inv_of_effect {i : Instr} {s t : State} {x : CycleIn} (hinv : Inv s)
    (hd : decode { ports := x, state := s.state, bytesNeeded := s.bytesNeeded } = .ok i) (he : Effect i s t) :
    Inv t := by
  obtain ⟨-, rfl⟩ | ⟨-, -, rfl⟩ | ⟨-, -, hs⟩ := decode_iff.mp hd
  · cases he
    exact inv_of_outside_frame nofun nofun rfl nofun hinv.bufWf
  · cases he
    exact { hinv with doneIdle := nofun }
  · exact inv_of_effect_of_selectedBy hinv hs he

/-- R55 under R24 item 3: every state and byte select a transition. -/
theorem exists_selectedBy {s : State} (hinv : Inv s) (c : Byte) : ∃ i, SelectedBy i s.state s.bytesNeeded c := by
  cases hq : s.state with
  | idle =>
    by_cases hc : c = Config.syncByte
    · exact ⟨.idleSync c, rfl, rfl, hc⟩
    · exact ⟨.idleSkip c, rfl, rfl, hc⟩
  | start1 =>
    by_cases hc : c = Config.syncByte
    · exact ⟨.start1Sync c, rfl, rfl, hc⟩
    · exact ⟨.start1Fall c, rfl, rfl, hc⟩
  | start2 => exact ⟨.start2Id c, rfl, rfl⟩
  | haveId =>
    by_cases hc : c = 0
    · exact ⟨.haveidLen0 c, rfl, rfl, hc⟩
    · exact ⟨.haveidLen c, rfl, rfl, hc⟩
  | haveLen =>
    obtain ⟨one_le, -⟩ := hinv.needsSome hq
    have counter : 2 < s.bytesNeeded ∨ s.bytesNeeded = 2 ∨ s.bytesNeeded = 1 := by bv_omega
    obtain hn | hn | hn := counter
    · exact ⟨.havelenData c, rfl, rfl, hn⟩
    · exact ⟨.havelenCklo c, rfl, rfl, hn⟩
    · exact ⟨.havelenLast c, rfl, rfl, hn⟩

/-- R92: so every cycle selects an instruction. -/
theorem exists_decode {s : State} (hinv : Inv s) (x : CycleIn) :
    ∃ i, decode { ports := x, state := s.state, bytesNeeded := s.bytesNeeded } = .ok i := by
  obtain ⟨i, hs⟩ := exists_selectedBy hinv x.inData
  simp only [decode_iff]
  cases hr : x.rst
  · cases hv : x.inValid
    · exact ⟨.nop, .inr (.inl ⟨rfl, rfl, rfl⟩)⟩
    · exact ⟨i, .inr (.inr ⟨rfl, rfl, hs⟩)⟩
  · exact ⟨.reset, .inl ⟨rfl, rfl⟩⟩

/-- R29 under R24 item 3: what a cycle selects has an effect, because a payload byte has an address in the buffer. -/
theorem exists_effect {i : Instr} {s : State} {x : CycleIn} (hinv : Inv s)
    (hd : decode { ports := x, state := s.state, bytesNeeded := s.bytesNeeded } = .ok i) : ∃ t, Effect i s t := by
  cases i with
  | havelenData c | havelenCklo c | havelenLast c =>
    obtain ⟨-, no_instr⟩ | ⟨-, -, no_instr⟩ | ⟨-, -, -, hq, -⟩ := decode_iff.mp hd
    · cases no_instr
    · cases no_instr
    · obtain ⟨one_le, le_len⟩ := hinv.needsSome hq
      exact ⟨_, payloadIndex_ne one_le le_len, rfl⟩
  | _ => exact ⟨_, rfl⟩

/-- Settles O36: a cycle selects an instruction, the instruction has an effect, and the effect keeps R24. -/
theorem noInputStopsTheMachine : Obligations.NoInputStopsTheMachine := by
  unfold Obligations.NoInputStopsTheMachine
  intro s hinv
  obtain ⟨i, hd⟩ := exists_decode hinv s.nextPorts
  obtain ⟨t, he⟩ := exists_effect (inv_consume hinv) hd
  exact ⟨t, (step_of_decode hd).trans (exec_next_iff.mpr he), inv_of_effect (inv_consume hinv) hd he⟩

/-! ## The state codes (R53) -/

/-- A code that stands for a state is that state's code. -/
theorem eq_code_of_stateOfCode {b : Byte} {q : SyncState} (h : stateOfCode b = some q) : b = q.code := by
  unfold stateOfCode at h
  split_ifs at h with h0 h1 h2 h3 h4 <;> cases h <;> assumption

/-- A state's code is at most 4. -/
theorem code_le_four (q : SyncState) : q.code ≤ 4 := by
  cases q <;> decide

/-- R53: the codes above 4 are reserved. -/
theorem stateOfCode_of_four_lt {b : Byte} (h : 4 < b) : stateOfCode b = none := by
  refine Option.eq_none_iff_forall_ne_some.mpr fun q hq => ?_
  have bound := code_le_four q
  rw [← eq_code_of_stateOfCode hq] at bound
  bv_omega

/-- Settles O9: the codes are read off `SyncState.code`, which `stateOfCode` inverts. -/
theorem stateCodesAreOneToOne : Obligations.StateCodesAreOneToOne := by
  unfold Obligations.StateCodesAreOneToOne
  refine ⟨rfl, rfl, rfl, rfl, rfl, fun b q => ⟨eq_code_of_stateOfCode, ?_⟩, fun b => stateOfCode_of_four_lt⟩
  rintro rfl
  exact stateOfCode_code q

end Sys2Proof.Proofs

namespace Sys2Proof.Proofs
open Sys2Proof Sys2Proof.Machine

/-! ## The checksum unit (`40_checksum.md`) -/

/-- R66: a pair of bytes as the shift and the bitwise or that the spec writes. -/
theorem ckValueOf_eq_shiftLeft_or (a b : Byte) :
    ckValueOf a b = (a.zeroExtend 16 <<< 8) ||| b.zeroExtend 16 := by
  have ha := a.isLt
  have hb := b.isLt
  apply BitVec.eq_of_toNat_eq
  simp only [ckValueOf, BitVec.zeroExtend_eq_setWidth, BitVec.toNat_append, BitVec.toNat_or, BitVec.toNat_shiftLeft,
    BitVec.toNat_setWidth, Nat.shiftLeft_eq]
  rw [Nat.mod_eq_of_lt (by omega : a.toNat < 2 ^ 16), Nat.mod_eq_of_lt (by omega : b.toNat < 2 ^ 16),
    Nat.mod_eq_of_lt (by omega : a.toNat * 2 ^ 8 < 2 ^ 16)]

/-- R56: the stream selects no micro-operation. -/
theorem isMicroOp_of_decode {p : Selection} {i : Instr} (h : decode p = .ok i) : i.isMicroOp = false := by
  obtain ⟨-, rfl⟩ | ⟨-, -, rfl⟩ | ⟨-, -, hs⟩ := decode_iff.mp h
  · rfl
  · rfl
  · exact hs.wellFormed.2

/-- R64: RESET leaves cleared accumulators. -/
theorem ck_of_exec_reset {s t : State} (h : exec .reset s = .next t) : (t.ckA, t.ckB) = (0, 0) := by
  cases exec_next_iff.mp h
  rfl

/-- R65: HAVEID.LEN and HAVELEN.DATA leave the accumulators that CK.STEP on their byte leaves. -/
theorem exec_ckStep_of_feeding {i : Instr} {s t : State} {c : Byte} (hi : i ∈ [Instr.haveidLen c, .havelenData c])
    (h : exec i s = .next t) : exec (.ckStep c) s = .next { s with ckA := t.ckA, ckB := t.ckB } := by
  have he := exec_next_iff.mp h
  simp only [List.mem_cons, List.not_mem_nil, or_false] at hi
  obtain rfl | rfl := hi
  · cases he
    rfl
  · obtain ⟨-, rfl⟩ := he
    rfl

/-- R86 for a frame with room for a checksum: the status is OK exactly if all 16 bits agree. -/
theorem lastStatus_eq_ok_iff {s : State} {c : Byte} (h : 2 ≤ s.msgLen) :
    lastStatus s c = .ok ↔ le16 (Memory.byteAt s.buf (s.msgLen - 2).toNat) c = s.calcCk := by
  have room : ¬ s.msgLen < Config.minValidLen := BitVec.not_lt.mpr h
  rw [lastStatus, if_neg room]
  split
  · next equal => exact iff_of_true rfl equal
  · next different => exact iff_of_false nofun different

/-- The byte that HAVELEN.LAST reads as the low checksum byte exists. -/
theorem load?_ckLo {s : State} (h : 2 ≤ s.msgLen) :
    Memory.load? s.buf (s.msgLen - 2) = some (Memory.byteAt s.buf (s.msgLen - 2).toNat) :=
  Memory.load?_of_ne (ckLo_address (BitVec.not_lt.mpr h))

/-- R66: HAVELEN.LAST compares the received checksum with the value of CK.VALUE. -/
theorem frameStatus_eq_ok_iff_of_havelenLast {s t : State} {c lo : Byte} (he : Effect (.havelenLast c) s t)
    (hlen : 2 ≤ s.msgLen) (hlo : Memory.load? s.buf (s.msgLen - 2) = some lo) :
    t.frameStatus = .ok ↔ le16 lo c = s.calcCk := by
  obtain ⟨-, rfl⟩ := he
  cases (load?_ckLo hlen).symm.trans hlo
  exact lastStatus_eq_ok_iff hlen

/-- Settles O22: each micro-operation is one update of the accumulators, and what each transition leaves in them is
read off its effect. -/
theorem checksumUnitOperations : Obligations.ChecksumUnitOperations := by
  unfold Obligations.ChecksumUnitOperations
  intro s c
  refine ⟨rfl, rfl, rfl, ckValueOf_eq_shiftLeft_or s.ckA s.ckB, fun _ _ => isMicroOp_of_decode,
    fun _ => ck_of_exec_reset, fun t h => ?_, fun _ hi _ => exec_ckStep_of_feeding hi, fun t h => ?_,
    fun _ _ h => frameStatus_eq_ok_iff_of_havelenLast (exec_next_iff.mp h)⟩
  · cases exec_next_iff.mp h
    rfl
  · cases exec_next_iff.mp h
    rfl

/-- R68: `verify` as an equation of 16-bit values. -/
theorem verify_iff {id len : Byte} {app : List Byte} {lo hi : Byte} :
    verify id len app lo hi = true ↔ checksum (id :: len :: app) = le16 lo hi := by
  rw [verify, beq_iff_eq]

/-- A checksum is a pair of received bytes exactly if each byte is its accumulator (R66, R67). -/
theorem checksum_eq_le16_iff {w : List Byte} {lo hi : Byte} :
    checksum w = le16 lo hi ↔ lo = (ckFeed (0, 0) w).2 ∧ hi = (ckFeed (0, 0) w).1 := by
  constructor
  · intro h
    obtain ⟨high, low⟩ := ckValueOf_inj h
    exact ⟨low.symm, high.symm⟩
  · rintro ⟨rfl, rfl⟩
    rfl

/-- Settles O30: a 16-bit value is its two bytes. -/
theorem verifyComparesBothBytes : Obligations.VerifyComparesBothBytes := by
  unfold Obligations.VerifyComparesBothBytes
  intro id len app lo hi
  exact ⟨verify_iff, verify_iff.trans checksum_eq_le16_iff⟩

/-- R24 item 5 at the last byte of a frame: the accumulators cover the whole application payload. -/
theorem coveredCount_of_last {s : State} (hn : s.bytesNeeded = 1) (hlen : 2 ≤ s.msgLen) :
    s.coveredCount = s.msgLen.toNat - 2 := by
  rw [State.coveredCount, hn]
  bv_omega

/-- R70: before the last byte of a frame the running checksum is the checksum of identifier, length and application
payload. -/
theorem calcCk_of_last {s : State} (hinv : Inv s) (hq : s.state = .haveLen) (hn : s.bytesNeeded = 1)
    (hlen : 2 ≤ s.msgLen) :
    s.calcCk = checksum (s.msgId :: s.msgLen :: Memory.bytes s.buf (s.msgLen.toNat - 2)) := by
  have acc := hinv.ckOfFrame hq
  rw [coveredCount_of_last hn hlen] at acc
  rw [checksum, ← acc, State.calcCk]

/-- The last byte of a frame is taken by HAVELEN.LAST, which has an effect under R24. -/
theorem exists_cycle_of_last {s : State} (hinv : Inv s) (hq : s.state = .haveLen) (hn : s.bytesNeeded = 1) (c : Byte) :
    ∃ t, cycle (.byte c) s = .next t ∧ Effect (.havelenLast c) s t := by
  have hs : SelectedBy (.havelenLast c) s.state s.bytesNeeded c := ⟨rfl, hq, hn⟩
  obtain ⟨t, he⟩ := exists_effect (x := .byte c) hinv (decodeByte_iff.mpr hs)
  exact ⟨t, (cycle_of_selectedBy hs).trans (exec_next_iff.mpr he), he⟩

/-- Settles O31: R24 item 5 makes the value that HAVELEN.LAST compares the checksum that `verify` compares. -/
theorem runningChecksumEqualsVerify : Obligations.RunningChecksumEqualsVerify := by
  unfold Obligations.RunningChecksumEqualsVerify
  intro s c hinv hq hn hlen
  have running := calcCk_of_last hinv hq hn hlen
  obtain ⟨t, hcycle, he⟩ := exists_cycle_of_last hinv hq hn c
  have compares : le16 (Memory.byteAt s.buf (s.msgLen - 2).toNat) c = s.calcCk ↔
      verify s.msgId s.msgLen (Memory.bytes s.buf (s.msgLen.toNat - 2))
        (Memory.byteAt s.buf (s.msgLen - 2).toNat) c = true := by
    rw [verify_iff, ← running, eq_comm]
  exact ⟨running, _, t, load?_ckLo hlen, hcycle, compares,
    (frameStatus_eq_ok_iff_of_havelenLast he hlen (load?_ckLo hlen)).trans compares⟩

end Sys2Proof.Proofs

namespace Sys2Proof.Proofs
open Sys2Proof Sys2Proof.Machine

/-! ## The sync-word detector (`41_sync_detect.md`) -/

/-- R93: an idle cycle runs NOP, from every state. -/
theorem cycle_idle (s : State) : cycle .idle s = .next s.clearDone :=
  (cycle_of_decode (i := .nop) rfl).trans (exec_next_iff.mpr rfl)

/-- R74, R75: what a byte accepted in Idle selects. -/
theorem cycle_byte_of_idle {s : State} (hq : s.state = .idle) (c : Byte) :
    (c = Config.syncByte → cycle (.byte c) s = exec (.idleSync c) s) ∧
    (c ≠ Config.syncByte → cycle (.byte c) s = exec (.idleSkip c) s) :=
  ⟨fun sync => cycle_of_selectedBy ⟨rfl, hq, sync⟩, fun other => cycle_of_selectedBy ⟨rfl, hq, other⟩⟩

/-- R76, R77: what a byte accepted in Start1 selects. -/
theorem cycle_byte_of_start1 {s : State} (hq : s.state = .start1) (c : Byte) :
    (c = Config.syncByte → cycle (.byte c) s = exec (.start1Sync c) s) ∧
    (c ≠ Config.syncByte → cycle (.byte c) s = exec (.start1Fall c) s) :=
  ⟨fun sync => cycle_of_selectedBy ⟨rfl, hq, sync⟩, fun other => cycle_of_selectedBy ⟨rfl, hq, other⟩⟩

/-- Settles O12: each transition's next state is its effect, no event is reported while `frame_done` is 0, and the
state with the byte, or its absence, selects. -/
theorem syncDetectorTransitions : Obligations.SyncDetectorTransitions := by
  unfold Obligations.SyncDetectorTransitions
  intro s c
  refine ⟨exec_next_iff.mpr rfl, exec_next_iff.mpr rfl, exec_next_iff.mpr rfl, exec_next_iff.mpr rfl,
    fun _ => State.event_none rfl, ?idleSync, ?idleSkip, ?noByte, ?start1Sync, ?start1Fall⟩
  case idleSync => exact fun hq => (cycle_byte_of_idle hq c).1
  case idleSkip => exact fun hq => (cycle_byte_of_idle hq c).2
  case noByte => exact fun _ => cycle_idle s
  case start1Sync => exact fun hq => (cycle_byte_of_start1 hq c).1
  case start1Fall => exact fun hq => (cycle_byte_of_start1 hq c).2

end Sys2Proof.Proofs

namespace Sys2Proof.Proofs
open Sys2Proof Sys2Proof.Machine

/-! ## Identifier and length capture (`42_header.md`, R79 to R81) -/

/-- R79: the accumulators restart from zero whatever they held, so the first byte fed becomes both. -/
theorem feedCk_clearCk (s : State) (c : Byte) : s.clearCk.feedCk c = s.setCk (c, c) := by
  change s.setCk (0 + c, 0 + (0 + c)) = _
  rw [zero_add, zero_add]

/-- R81: the step on a zero byte leaves `ck_a` and adds it to `ck_b`. -/
theorem feedCk_zero (s : State) : s.feedCk 0 = s.setCk (s.ckA, s.ckB + s.ckA) := by
  change s.setCk (s.ckA + 0, s.ckB + (s.ckA + 0)) = _
  rw [add_zero]

/-- What START2.ID answers (R79). -/
theorem exec_start2Id (s : State) (c : Byte) :
    exec (.start2Id c) s = .next { s with msgId := c, ckA := c, ckB := c, state := .haveId, frameDone := false } := by
  rw [exec_next_iff, Effect, feedCk_clearCk]
  rfl

/-- What HAVEID.LEN answers (R80). -/
theorem exec_haveidLen (s : State) (c : Byte) :
    exec (.haveidLen c) s =
      .next { s with msgLen := c, bytesNeeded := c, ckA := s.ckA + c, ckB := s.ckB + (s.ckA + c)
                     state := .haveLen, frameDone := false } :=
  exec_next_iff.mpr rfl

/-- What HAVEID.LEN0 answers (R81). -/
theorem exec_haveidLen0 (s : State) (c : Byte) :
    exec (.haveidLen0 c) s =
      .next { s with msgLen := 0, ckA := s.ckA, ckB := s.ckB + s.ckA, bytesNeeded := 1, state := .idle
                     frameDone := true, frameStatus := .lenErr } := by
  rw [exec_next_iff, Effect, feedCk_zero]
  rfl

/-- R80: a length byte other than 0 completes no frame. -/
theorem event_of_haveidLen {s t : State} {c : Byte} (he : Effect (.haveidLen c) s t) : t.event = none := by
  cases he
  exact State.event_none rfl

/-- R81: the length byte 0 completes the frame with `LengthError`. -/
theorem event_of_haveidLen0 {s t : State} {c : Byte} (he : Effect (.haveidLen0 c) s t) :
    t.event = some (.lengthError s.msgId 0) := by
  cases he
  exact State.event_lenErr rfl rfl

/-- Settles O13: START2.ID's answer, its event while `frame_done` is 0, and its selection in Start2. -/
theorem start2IdStoresTheIdentifier : Obligations.Start2IdStoresTheIdentifier := by
  unfold Obligations.Start2IdStoresTheIdentifier
  intro s c
  exact ⟨exec_start2Id s c, State.event_none rfl, fun hq => cycle_of_selectedBy ⟨rfl, hq⟩⟩

/-- Settles O14: HAVEID.LEN's answer, its event, and its selection in HaveId. -/
theorem haveidLenStoresTheLength : Obligations.HaveidLenStoresTheLength := by
  unfold Obligations.HaveidLenStoresTheLength
  intro s c hc
  exact ⟨exec_haveidLen s c, fun _ h => event_of_haveidLen (exec_next_iff.mp h),
    fun hq => cycle_of_selectedBy ⟨rfl, hq, hc⟩⟩

/-- Settles O15: HAVEID.LEN0's answer, its event, and its selection in HaveId. -/
theorem haveidLen0DropsTheFrame : Obligations.HaveidLen0DropsTheFrame := by
  unfold Obligations.HaveidLen0DropsTheFrame
  intro s
  exact ⟨exec_haveidLen0 s 0, fun _ h => event_of_haveidLen0 (exec_next_iff.mp h),
    fun hq => cycle_of_selectedBy ⟨rfl, hq, rfl⟩⟩

end Sys2Proof.Proofs

namespace Sys2Proof.Proofs
open Sys2Proof Sys2Proof.Machine

/-! ## Runs over bytes, taken apart (R94) -/

/-- A run over a byte and more bytes is the byte's cycle and then the run over the others. -/
theorem feed_cons_iff {c : Byte} {w : List Byte} {s u : State} {es : List Event} :
    feed (c :: w) s = .next (u, es) ↔
      ∃ t fs, cycle (.byte c) s = .next t ∧ feed w t = .next (u, fs) ∧ es = t.event.toList ++ fs := by
  constructor
  · intro h
    simp only [feed, List.map_cons, run] at h
    split at h
    · next t hcycle =>
      split at h
      · next u' fs hrest =>
        cases h
        exact ⟨t, fs, hcycle, hrest, rfl⟩
      · cases h
      · cases h
    · cases h
    · cases h
  · rintro ⟨t, fs, hcycle, hrest, rfl⟩
    exact feed_cons hcycle hrest

/-- R95: a run over joined sequences is the run over the first and then over the second, the events joined. -/
theorem feed_append_iff {x y : List Byte} {s u : State} {es : List Event} :
    feed (x ++ y) s = .next (u, es) ↔
      ∃ t fs gs, feed x s = .next (t, fs) ∧ feed y t = .next (u, gs) ∧ es = fs ++ gs := by
  induction x generalizing s es with
  | nil =>
    constructor
    · intro h
      exact ⟨s, [], es, feed_nil s, h, rfl⟩
    · rintro ⟨t, fs, gs, hx, hy, rfl⟩
      cases hx
      exact hy
  | cons c x ih =>
    rw [List.cons_append, feed_cons_iff]
    constructor
    · rintro ⟨t, es', hcycle, hrest, rfl⟩
      obtain ⟨v, fs, gs, hx, hy, rfl⟩ := ih.mp hrest
      exact ⟨v, _, gs, feed_cons hcycle hx, hy, (List.append_assoc ..).symm⟩
    · rintro ⟨v, fs, gs, hx, hy, rfl⟩
      obtain ⟨t, fs', hcycle, hrest, rfl⟩ := feed_cons_iff.mp hx
      exact ⟨t, fs' ++ gs, hcycle, ih.mpr ⟨v, fs', gs, hrest, hy, rfl⟩, List.append_assoc ..⟩

/-- Quiet runs one after the other are a quiet run. -/
theorem feed_append_quiet {x y : List Byte} {s t u : State} (hx : feed x s = .next (t, []))
    (hy : feed y t = .next (u, [])) : feed (x ++ y) s = .next (u, []) :=
  feed_append_iff.mpr ⟨t, [], [], hx, hy, rfl⟩

/-- A quiet run is quiet from its beginning on. -/
theorem feed_take_quiet {w : List Byte} {s u : State} (h : feed w s = .next (u, [])) (k : Nat) :
    ∃ t, feed (w.take k) s = .next (t, []) := by
  rw [← List.take_append_drop k w] at h
  obtain ⟨t, fs, gs, hfirst, -, hquiet⟩ := feed_append_iff.mp h
  obtain ⟨rfl, -⟩ := List.append_eq_nil_iff.mp hquiet.symm
  exact ⟨t, hfirst⟩

/-- The run over one byte is its cycle. -/
theorem feed_singleton {c : Byte} {s t : State} (h : cycle (.byte c) s = .next t) :
    feed [c] s = .next (t, t.event.toList) := by
  simpa using feed_cons h (feed_nil t)

/-- Under R24 the selected transition has an effect, the cycle answers it, and R24 holds again. -/
theorem exists_cycle_of_selectedBy {i : Instr} {s : State} {c : Byte} (hinv : Inv s)
    (hs : SelectedBy i s.state s.bytesNeeded c) : ∃ t, cycle (.byte c) s = .next t ∧ Effect i s t ∧ Inv t := by
  obtain ⟨t, he⟩ := exists_effect (x := .byte c) hinv (decodeByte_iff.mpr hs)
  exact ⟨t, (cycle_of_selectedBy hs).trans (exec_next_iff.mpr he), he, inv_of_effect_of_selectedBy hinv hs he⟩

/-! ## What the buffer holds of a frame -/

/-- Fewer bytes of the buffer are the first of them. -/
theorem bytes_eq_take {m : Memory} {w : List Byte} {k : Nat} (h : Memory.bytes m w.length = w) (hk : k ≤ w.length) :
    Memory.bytes m k = w.take k := by
  calc Memory.bytes m k = (Memory.bytes m w.length).take k := by
        rw [Memory.bytes, Memory.bytes, ← List.map_take, List.take_range, Nat.min_eq_left hk]
    _ = w.take k := by rw [h]

/-- A byte of the buffer is the byte of the sequence it holds. -/
theorem byteAt_eq_getD {m : Memory} {w : List Byte} {k : Nat} (h : Memory.bytes m w.length = w) (hk : k < w.length) :
    Memory.byteAt m k = w.getD k 0 := by
  rw [List.getD_eq_getElem _ _ hk]
  conv_rhs => rw [← List.getElem_of_eq h (by simpa using hk)]
  simp [Memory.bytes]

/-- A byte stored behind a sequence makes it one longer. -/
theorem bytes_put_snoc {m : Memory} {w : List Byte} (h : Memory.bytes m w.length = w) (c : Byte) :
    Memory.bytes (Memory.put m w.length c) (w ++ [c]).length = w ++ [c] := by
  rw [List.length_append, List.length_singleton, Memory.bytes_succ, Memory.bytes_put_of_le m le_rfl, h,
    Memory.byteAt_put, if_pos rfl]

/-! ## The header of a frame -/

/-- From Idle a sync word and an identifier lead to HaveId without an event (R74, R76, R79). -/
theorem feed_sync_id {s : State} (hinv : Inv s) (hq : s.state = .idle) (id : Byte) :
    ∃ t, feed (syncWord ++ [id]) s = .next (t, []) ∧ Inv t ∧ t.state = .haveId ∧ t.msgId = id := by
  obtain ⟨s1, hcycle1, he1, hinv1⟩ :=
    exists_cycle_of_selectedBy (i := .idleSync Config.syncByte) hinv ⟨rfl, hq, rfl⟩
  cases he1
  obtain ⟨s2, hcycle2, he2, hinv2⟩ :=
    exists_cycle_of_selectedBy (i := .start1Sync Config.syncByte) hinv1 ⟨rfl, rfl, rfl⟩
  cases he2
  obtain ⟨s3, hcycle3, he3, hinv3⟩ := exists_cycle_of_selectedBy (i := .start2Id id) hinv2 ⟨rfl, rfl⟩
  cases he3
  exact ⟨_, feed_cons hcycle1 (feed_cons hcycle2 (feed_cons hcycle3 (feed_nil _))), hinv3, rfl, rfl⟩

/-- The state inside a frame with this identifier and length, after the payload bytes `p`. -/
structure InPayload (s : State) (id len : Byte) (p : List Byte) : Prop where
  inv       : Inv s
  state_eq  : s.state = .haveLen
  id_eq     : s.msgId = id
  len_eq    : s.msgLen = len
  /-- R24 item 6: the counter is what the length leaves. -/
  needs     : p.length + s.bytesNeeded.toNat = len.toNat
  /-- R30: the payload stands in the buffer from address 0 on. -/
  stored    : Memory.bytes s.buf p.length = p

/-- A length byte other than 0 begins the payload, without an event (R80). -/
theorem cycle_haveidLen {s : State} {len : Byte} (hinv : Inv s) (hq : s.state = .haveId) (hlen : len ≠ 0) :
    ∃ t, cycle (.byte len) s = .next t ∧ t.event = none ∧ InPayload t s.msgId len [] := by
  obtain ⟨t, hcycle, he, hinv'⟩ := exists_cycle_of_selectedBy (i := .haveidLen len) hinv ⟨rfl, hq, hlen⟩
  refine ⟨t, hcycle, event_of_haveidLen he, ?_⟩
  cases he
  exact ⟨hinv', rfl, rfl, rfl, Nat.zero_add _, rfl⟩

/-! ## The payload of a frame -/

/-- A payload byte that is not the last is stored at the payload index and counted, by HAVELEN.DATA or HAVELEN.CKLO
alike (R84, R85); beside these only the accumulators may change. -/
theorem cycle_payload_byte {s : State} (hinv : Inv s) (hq : s.state = .haveLen) (hn : 1 < s.bytesNeeded) (c : Byte) :
    ∃ t, cycle (.byte c) s = .next t ∧ Inv t ∧
      t = { s with buf := Memory.put s.buf s.payloadIndex.toNat c, ckA := t.ckA, ckB := t.ckB
                   bytesNeeded := s.bytesNeeded - 1, frameDone := false } := by
  have counter : 2 < s.bytesNeeded ∨ s.bytesNeeded = 2 := by bv_omega
  obtain many | two := counter
  · obtain ⟨t, hcycle, ⟨-, rfl⟩, hinv'⟩ :=
      exists_cycle_of_selectedBy (i := .havelenData c) hinv ⟨rfl, hq, many⟩
    exact ⟨_, hcycle, hinv', rfl⟩
  · obtain ⟨t, hcycle, ⟨-, rfl⟩, hinv'⟩ :=
      exists_cycle_of_selectedBy (i := .havelenCklo c) hinv ⟨rfl, hq, two⟩
    refine ⟨_, hcycle, hinv', ?_⟩
    rw [two]
    rfl

/-- Inside a frame the next byte is stored behind the payload bytes taken so far. -/
theorem InPayload.payloadIndex_eq {s : State} {id len : Byte} {p : List Byte} (h : InPayload s id len p) :
    s.payloadIndex.toNat = p.length := by
  rw [payloadIndex_toNat (h.inv.needsSome h.state_eq).2, h.len_eq, ← h.needs, Nat.add_sub_cancel]

/-- One more payload byte, not the last: no event. -/
theorem InPayload.cycle_snoc {s : State} {id len : Byte} {p : List Byte} (h : InPayload s id len p)
    (more : p.length + 1 < len.toNat) (c : Byte) :
    ∃ t, cycle (.byte c) s = .next t ∧ t.event = none ∧ InPayload t id len (p ++ [c]) := by
  have needs := h.needs
  obtain ⟨t, hcycle, hinv, ht⟩ := cycle_payload_byte h.inv h.state_eq (by bv_omega) c
  refine ⟨t, hcycle, State.event_none (by rw [ht]), hinv, ?_, ?_, ?_, ?_, ?_⟩
  · rw [ht]; exact h.state_eq
  · rw [ht]; exact h.id_eq
  · rw [ht]; exact h.len_eq
  · rw [ht, List.length_append, List.length_singleton]
    bv_omega
  · rw [ht, h.payloadIndex_eq]
    exact bytes_put_snoc h.stored c

/-- The payload but for its last byte is taken without an event, whatever its bytes are. -/
theorem InPayload.feed_append {s : State} {id len : Byte} {p w : List Byte} (h : InPayload s id len p)
    (more : p.length + w.length < len.toNat) :
    ∃ t, feed w s = .next (t, []) ∧ InPayload t id len (p ++ w) := by
  induction w generalizing s p with
  | nil => exact ⟨s, feed_nil s, by rwa [List.append_nil]⟩
  | cons c w ih =>
    rw [List.length_cons] at more
    obtain ⟨t, hcycle, hquiet, ht⟩ := h.cycle_snoc (by omega) c
    obtain ⟨u, hfeed, hu⟩ := ih ht (by rw [List.length_append, List.length_singleton]; omega)
    refine ⟨u, ?_, by rwa [List.append_assoc] at hu⟩
    simpa [hquiet] using feed_cons hcycle hfeed

/-! ## The outcome of a frame (R82) -/

/-- What a frame with this identifier, length byte and payload is reported as: the length is tested first, then the
checksum of its application payload. -/
def frameOutcome (id len : Byte) (w : List Byte) : Event :=
  if len < 2 then .lengthError id len
  else if verify id len (w.take (len.toNat - 2)) (w.getD (len.toNat - 2) 0) (w.getD (len.toNat - 1) 0) then
    .frameOk id len (w.take (len.toNat - 2))
  else .checksumMismatch id len (checksum (id :: len :: w.take (len.toNat - 2)))
    (le16 (w.getD (len.toNat - 2) 0) (w.getD (len.toNat - 1) 0))

/-- The length validator's status for such a frame (R82, R86), which `frameOutcome` reports. -/
def frameVerdict (id len : Byte) (w : List Byte) : FrameStatus :=
  if len < 2 then .lenErr
  else if verify id len (w.take (len.toNat - 2)) (w.getD (len.toNat - 2) 0) (w.getD (len.toNat - 1) 0) then .ok
  else .ckErr

/-- The last byte of a frame: HAVELEN.LAST stores it, and the status is that of R86. -/
theorem InPayload.effect_last {s : State} {id len : Byte} {p : List Byte} (h : InPayload s id len p)
    (last : p.length + 1 = len.toNat) (c : Byte) :
    ∃ t, cycle (.byte c) s = .next t ∧
      t = { s with buf := Memory.put s.buf p.length c, state := .idle, bytesNeeded := 1, frameDone := true
                   frameStatus := lastStatus s c } := by
  have needs := h.needs
  obtain ⟨t, hcycle, -, ht⟩ := exists_cycle_of_last h.inv h.state_eq (by bv_omega) c
  rw [h.payloadIndex_eq] at ht
  exact ⟨t, hcycle, ht⟩

/-- R70: the checksum that the last byte `c` of a frame is compared with is that of the application payload. -/
theorem InPayload.calcCk_eq {s : State} {id len : Byte} {p : List Byte} (h : InPayload s id len p)
    (last : p.length + 1 = len.toNat) (room : 2 ≤ len) (c : Byte) :
    s.calcCk = checksum (id :: len :: (p ++ [c]).take (len.toNat - 2)) := by
  have needs := h.needs
  have hlen := h.len_eq
  rw [calcCk_of_last h.inv h.state_eq (by bv_omega) (hlen ▸ room), h.id_eq, hlen, bytes_eq_take h.stored (by omega),
    List.take_append_of_le_length (by omega)]

/-- R86: the status that HAVELEN.LAST finds, with the low checksum byte still in the buffer and the high byte `c` at the
port, is that of the whole payload. -/
theorem InPayload.lastStatus_eq {s : State} {id len : Byte} {p : List Byte} (h : InPayload s id len p)
    (last : p.length + 1 = len.toNat) (c : Byte) : lastStatus s c = frameVerdict id len (p ++ [c]) := by
  rw [lastStatus, frameVerdict, h.len_eq]
  by_cases short : len < 2
  · rw [if_pos short]
    exact if_pos short
  · have room : 2 ≤ len := BitVec.not_lt.mp short
    have room_toNat : 2 ≤ len.toNat := room
    have lo_addr : (len - 2).toNat = len.toNat - 2 := by bv_omega
    have lo : Memory.byteAt s.buf (len - 2).toNat = (p ++ [c]).getD (len.toNat - 2) 0 := by
      rw [lo_addr, byteAt_eq_getD h.stored (by omega), List.getD_append _ _ _ _ (by omega)]
    have hi : (p ++ [c]).getD (len.toNat - 1) 0 = c := by simp [← last]
    rw [if_neg short, lo, hi, h.calcCk_eq last room c]
    exact (if_neg short).trans (if_congr (eq_comm.trans verify_iff.symm) rfl rfl)

/-- The read port shows the payload of a frame that stands in the buffer. -/
theorem rdData_of_stored {t : State} {w : List Byte} (hw : Memory.bytes t.buf w.length = w)
    (hlen : w.length = t.msgLen.toNat) {a : Byte} (ha : a < t.msgLen) : t.rdData a = w.getD a.toNat 0 := by
  have addr_exists : a ≠ 255#8 := by bv_omega
  rw [State.rdData_of_ne addr_exists, byteAt_eq_getD hw (by bv_omega)]

/-- R88: the downstream reads the application payload of a frame whose payload stands in the buffer. -/
theorem readApp_of_stored {t : State} {w : List Byte} (hw : Memory.bytes t.buf w.length = w)
    (hlen : w.length = t.msgLen.toNat) (room : 2 ≤ t.msgLen) : t.readApp = w.take (t.msgLen.toNat - 2) := by
  rw [State.readApp_eq (BitVec.not_lt.mpr room), bytes_eq_take hw (by omega)]

/-- R89: the received checksum that the downstream reads is the payload's last two bytes. -/
theorem received_of_stored {t : State} {w : List Byte} (hw : Memory.bytes t.buf w.length = w)
    (hlen : w.length = t.msgLen.toNat) (room : 2 ≤ t.msgLen) :
    le16 (t.rdData (t.msgLen - 2)) (t.rdData (t.msgLen - 1)) =
      le16 (w.getD (t.msgLen.toNat - 2) 0) (w.getD (t.msgLen.toNat - 1) 0) := by
  have lo_addr : (t.msgLen - 2).toNat = t.msgLen.toNat - 2 := by bv_omega
  have hi_addr : (t.msgLen - 1).toNat = t.msgLen.toNat - 1 := by bv_omega
  rw [rdData_of_stored hw hlen (by bv_omega), rdData_of_stored hw hlen (by bv_omega), lo_addr, hi_addr]

/-- R88, R89: with a frame's payload in the buffer, its checksum in the accumulators and its status in the flags, the
ports report the frame's outcome. -/
theorem event_eq_frameOutcome {t : State} {w : List Byte} (done : t.frameDone = true)
    (status : t.frameStatus = frameVerdict t.msgId t.msgLen w) (hw : Memory.bytes t.buf w.length = w)
    (hlen : w.length = t.msgLen.toNat)
    (calculated : 2 ≤ t.msgLen → t.calcCk = checksum (t.msgId :: t.msgLen :: w.take (t.msgLen.toNat - 2))) :
    t.event = some (frameOutcome t.msgId t.msgLen w) := by
  rw [frameVerdict] at status
  rw [frameOutcome]
  split_ifs at status ⊢ with short good
  · exact State.event_lenErr done status
  · rw [State.event_ok done status, readApp_of_stored hw hlen (BitVec.not_lt.mp short)]
  · have room : 2 ≤ t.msgLen := BitVec.not_lt.mp short
    rw [State.event_ckErr done status, received_of_stored hw hlen room, calculated room]

/-- The last byte of a frame reports the frame's outcome and returns to Idle. -/
theorem InPayload.cycle_last {s : State} {id len : Byte} {p : List Byte} (h : InPayload s id len p)
    (last : p.length + 1 = len.toNat) (c : Byte) :
    ∃ t, cycle (.byte c) s = .next t ∧ t.event = some (frameOutcome id len (p ++ [c])) ∧ t.state = .idle := by
  obtain ⟨t, hcycle, ht⟩ := h.effect_last last c
  have calculated := h.calcCk_eq last (c := c)
  have status := h.lastStatus_eq last c
  have count : (p ++ [c]).length = len.toNat := by rw [List.length_append, List.length_singleton, last]
  obtain ⟨-, -, rfl, rfl, -, stored⟩ := h
  subst ht
  exact ⟨_, hcycle, event_eq_frameOutcome rfl status (bytes_put_snoc stored c) count calculated, rfl⟩

/-- The length byte 0 is the last of its frame (R81). -/
theorem cycle_haveidLen0 {s : State} (hinv : Inv s) (hq : s.state = .haveId) :
    ∃ t, cycle (.byte 0) s = .next t ∧ t.event = some (frameOutcome s.msgId 0 []) ∧ t.state = .idle := by
  obtain ⟨t, hcycle, he, -⟩ := exists_cycle_of_selectedBy (i := .haveidLen0 0) hinv ⟨rfl, hq, rfl⟩
  refine ⟨t, hcycle, event_of_haveidLen0 he, ?_⟩
  cases he
  rfl

/-- Every frame is a quiet run and then a last byte, which reports the frame's outcome: the length byte where it is 0
(R81), and the last payload byte otherwise. -/
theorem exists_last_byte_of_frame {s : State} {id len : Byte} {w : List Byte} (hinv : Inv s) (hq : s.state = .idle)
    (hw : w.length = len.toNat) :
    ∃ front c t u, syncWord ++ [id, len] ++ w = front ++ [c] ∧ feed front s = .next (t, []) ∧
      cycle (.byte c) t = .next u ∧ u.event = some (frameOutcome id len w) ∧ u.state = .idle := by
  obtain ⟨a, hheader, hinva, hqa, rfl⟩ := feed_sync_id hinv hq id
  by_cases hlen : len = 0
  · subst hlen
    obtain rfl : w = [] := List.length_eq_zero_iff.mp hw
    obtain ⟨u, hcycle, hevent, hidle⟩ := cycle_haveidLen0 hinva hqa
    exact ⟨syncWord ++ [a.msgId], 0, a, u, rfl, hheader, hcycle, hevent, hidle⟩
  · have nonempty : w ≠ [] := by
      rintro rfl
      exact hlen (BitVec.eq_of_toNat_eq hw.symm)
    obtain ⟨p, c, rfl⟩ := (List.eq_nil_or_concat' w).resolve_left nonempty
    rw [List.length_append, List.length_singleton] at hw
    obtain ⟨b, hcycle, hquiet, hb⟩ := cycle_haveidLen hinva hqa hlen
    obtain ⟨t, hpayload, ht⟩ := hb.feed_append (w := p) (by rw [List.length_nil]; omega)
    obtain ⟨u, hlast, hevent, hidle⟩ := ht.cycle_last (c := c) (by simpa using hw)
    have length_byte : feed [len] a = .next (b, []) := by simpa [hquiet] using feed_singleton hcycle
    exact ⟨syncWord ++ [a.msgId] ++ [len] ++ p, c, t, u, by simp,
      feed_append_quiet (feed_append_quiet hheader length_byte) hpayload, hlast, hevent, hidle⟩

/-- Settles O44: the frame but for its last byte is quiet, so each of its beginnings is, and the last byte reports. -/
theorem everyFrameHasThisOutcome : Obligations.EveryFrameHasThisOutcome := by
  unfold Obligations.EveryFrameHasThisOutcome
  intro s id len w hinv hq hw
  obtain ⟨front, c, t, u, hframe, hfront, hcycle, hevent, hidle⟩ := exists_last_byte_of_frame (id := id) hinv hq hw
  have count : front.length + 1 = 4 + len.toNat := by
    have lengths := congrArg List.length hframe
    simp only [syncWord, List.length_append, List.length_cons, List.length_nil, hw] at lengths
    omega
  rw [hframe]
  refine ⟨fun k hk => ?quiet, u, ?report, hidle⟩
  case quiet =>
    rw [List.take_append_of_le_length (by omega)]
    exact feed_take_quiet hfront k
  case report =>
    have hlast := feed_singleton hcycle
    rw [hevent] at hlast
    exact feed_append_iff.mpr ⟨t, [], _, hfront, hlast, rfl⟩

end Sys2Proof.Proofs

namespace Sys2Proof.Proofs
open Sys2Proof Sys2Proof.Machine

/-! ## The payload is taken by count (`43_payload.md`, R90) -/

/-- The buffer after the bytes `w` are stored in order from address `a` on. -/
def putBytes (m : Memory) (a : Nat) (w : List Byte) : Memory :=
  match w with
  | []     => m
  | c :: w => putBytes (Memory.put m a c) (a + 1) w

/-- Storing one byte more is a write behind those stored. -/
theorem putBytes_snoc (m : Memory) (a : Nat) (w : List Byte) (c : Byte) :
    putBytes m a (w ++ [c]) = Memory.put (putBytes m a w) (a + w.length) c := by
  induction w generalizing m a with
  | nil => rfl
  | cons d w ih =>
    rw [List.cons_append, putBytes, ih, putBytes, List.length_cons, Nat.add_assoc, Nat.add_comm 1]

theorem cell?_putBytes_of_lt {m : Memory} {a b : Nat} (w : List Byte) (h : b < a) :
    Memory.cell? (putBytes m a w) b = Memory.cell? m b := by
  induction w generalizing m a with
  | nil => rfl
  | cons c w ih => rw [putBytes, ih (Nat.lt_succ_of_lt h), Memory.cell?_put, if_neg h.ne]

theorem byteAt_putBytes_of_lt {m : Memory} {a b : Nat} (w : List Byte) (h : b < a) :
    Memory.byteAt (putBytes m a w) b = Memory.byteAt m b := by
  rw [Memory.byteAt, cell?_putBytes_of_lt w h, Memory.byteAt]

/-- A stored byte stands at its place. -/
theorem cell?_putBytes_add {m : Memory} {a i : Nat} {w : List Byte} (h : i < w.length) :
    Memory.cell? (putBytes m a w) (a + i) = w[i]? := by
  induction w generalizing m a i with
  | nil => nomatch h
  | cons c w ih =>
    cases i with
    | zero => simp [putBytes, cell?_putBytes_of_lt w (Nat.lt_add_one a)]
    | succ i =>
      have later := ih (m := Memory.put m a c) (a := a + 1) (Nat.lt_of_succ_lt_succ h)
      rwa [Nat.add_right_comm] at later

/-- R26, R30: with `n` payload bytes taken, the next one is stored `n` places further on. -/
theorem payloadIndex_toNat_of_taken {s t : State} {n : Nat} (le_len : s.bytesNeeded ≤ s.msgLen)
    (len_eq : t.msgLen = s.msgLen) (count : n + t.bytesNeeded.toNat = s.bytesNeeded.toNat) :
    t.payloadIndex.toNat = s.payloadIndex.toNat + n := by
  have le_len' : t.bytesNeeded ≤ t.msgLen := by
    rw [len_eq]
    bv_omega
  rw [payloadIndex_toNat le_len', payloadIndex_toNat le_len, len_eq]
  bv_omega

/-- R84 and R85 over any bytes, fewer than the frame still needs: no event, and only the buffer, the counter, the
accumulators and the pulse may change. -/
theorem feed_payload_bytes {s : State} {w : List Byte} (hinv : Inv s) (hq : s.state = .haveLen)
    (fewer : w.length < s.bytesNeeded.toNat) :
    ∃ t, feed w s = .next (t, []) ∧ Inv t ∧ w.length + t.bytesNeeded.toNat = s.bytesNeeded.toNat ∧
      t = { s with buf := putBytes s.buf s.payloadIndex.toNat w, bytesNeeded := t.bytesNeeded
                   ckA := t.ckA, ckB := t.ckB, frameDone := t.frameDone } := by
  induction w generalizing s with
  | nil => exact ⟨s, feed_nil s, hinv, Nat.zero_add _, rfl⟩
  | cons c w ih =>
    rw [List.length_cons] at fewer
    obtain ⟨t, hcycle, hinvt, ht⟩ := cycle_payload_byte hinv hq (by bv_omega) c
    have needs : 1 + t.bytesNeeded.toNat = s.bytesNeeded.toNat := by
      rw [ht]
      bv_omega
    have index : t.payloadIndex.toNat = s.payloadIndex.toNat + 1 :=
      payloadIndex_toNat_of_taken (hinv.needsSome hq).2 (by rw [ht]) needs
    obtain ⟨u, hfeed, hinvu, count, hu⟩ := ih hinvt (by rw [ht]; exact hq) (by omega)
    refine ⟨u, ?_, hinvu, by rw [List.length_cons]; omega, ?_⟩
    · simpa [State.event_none (s := t) (by rw [ht])] using feed_cons hcycle hfeed
    · rw [index, ht] at hu
      exact hu

/-- R86 behind them: all the bytes that the frame needs return to Idle, and the last of them completes the frame. -/
theorem feed_whole_payload {s : State} {w : List Byte} (hinv : Inv s) (hq : s.state = .haveLen)
    (all : w.length = s.bytesNeeded.toNat) :
    ∃ t, feed w s = .next (t, t.event.toList) ∧ t.frameDone = true ∧ t.state = .idle ∧ t.msgId = s.msgId ∧
      t.msgLen = s.msgLen ∧ t.buf = putBytes s.buf s.payloadIndex.toNat w := by
  obtain ⟨one_le, le_len⟩ := hinv.needsSome hq
  have nonempty : w ≠ [] := by
    rintro rfl
    rw [List.length_nil] at all
    bv_omega
  obtain ⟨p, c, rfl⟩ := (List.eq_nil_or_concat' w).resolve_left nonempty
  rw [List.length_append, List.length_singleton] at all
  obtain ⟨t, hfeed, hinvt, count, ht⟩ := feed_payload_bytes (w := p) hinv hq (by omega)
  have hqt : t.state = .haveLen := by rw [ht]; exact hq
  have len_eq : t.msgLen = s.msgLen := by rw [ht]
  have last : t.bytesNeeded = 1 := by bv_omega
  obtain ⟨u, hcycle, -, rfl⟩ := exists_cycle_of_last hinvt hqt last c
  refine ⟨_, feed_append_iff.mpr ⟨t, [], _, hfeed, feed_singleton hcycle, rfl⟩, rfl, rfl, ?_, len_eq, ?_⟩
  · rw [ht]
  · rw [putBytes_snoc, payloadIndex_toNat_of_taken le_len len_eq count, ht]

/-- A completed frame is reported by one event (R15). -/
theorem length_event_of_frameDone {s : State} (h : s.frameDone = true) : s.event.toList.length = 1 := by
  cases hs : s.frameStatus with
  | ok => rw [State.event_ok h hs]; rfl
  | ckErr => rw [State.event_ckErr h hs]; rfl
  | lenErr => rw [State.event_lenErr h hs]; rfl

/-- What the bytes stored in order leave in the buffer: themselves from the payload index on, and what stood below. -/
theorem stored_and_kept_of_putBytes {m m' : Memory} {a : Nat} {w : List Byte} (h : m' = putBytes m a w) :
    (∀ i, i < w.length → Memory.cell? m' (a + i) = w[i]?) ∧ ∀ b, b < a → Memory.byteAt m' b = Memory.byteAt m b := by
  rw [h]
  exact ⟨fun _ => cell?_putBytes_add, fun _ => byteAt_putBytes_of_lt w⟩

/-- Settles O43: up to the last byte the payload is only counted and stored, and the last byte completes the frame. -/
theorem payloadIsTakenByCountAlone : Obligations.PayloadIsTakenByCountAlone := by
  unfold Obligations.PayloadIsTakenByCountAlone
  intro s w hinv hq hcount
  obtain fewer | all := hcount.lt_or_eq
  · obtain ⟨t, hfeed, -, count, ht⟩ := feed_payload_bytes hinv hq fewer
    exact ⟨t, [], hfeed, by rw [ht], by rw [ht], fun _ => ⟨by rw [ht]; exact hq, by omega, rfl⟩,
      fun all => absurd all fewer.ne, stored_and_kept_of_putBytes (by rw [ht]; rfl)⟩
  · obtain ⟨t, hfeed, done, idle, id_eq, len_eq, hbuf⟩ := feed_whole_payload hinv hq all
    exact ⟨t, _, hfeed, id_eq, len_eq, fun fewer => absurd all fewer.ne,
      fun _ => ⟨idle, length_event_of_frameDone done⟩, stored_and_kept_of_putBytes hbuf⟩

end Sys2Proof.Proofs

namespace Sys2Proof.Proofs
open Sys2Proof Sys2Proof.Machine

/-! ## The transitions of HaveLen, one by one (`43_payload.md`, R84 to R86) -/

/-- R82: a length of at least 2 is not too short. -/
theorem not_lt_minValidLen {len : Byte} (room : 2 ≤ len) : ¬ len < Config.minValidLen :=
  BitVec.not_lt.mpr room

/-- Settles O16: HAVELEN.DATA's answer where its address exists, no event while `frame_done` is 0, and its selection. -/
theorem havelenDataStoresAndFeeds : Obligations.HavelenDataStoresAndFeeds := by
  unfold Obligations.HavelenDataStoresAndFeeds
  intro s c hn le_len
  have addr_exists : s.payloadIndex ≠ 255#8 := payloadIndex_ne (by bv_omega) le_len
  refine ⟨⟨_, execHavelenData_eq c addr_exists, State.event_none rfl, Memory.load?_put addr_exists c⟩, ?below, ?counter,
    fun hq => cycle_of_selectedBy ⟨rfl, hq, hn⟩⟩
  case below => bv_omega
  case counter => bv_omega

/-- Settles O17: as for O16, with the payload index at the place of the low checksum byte. -/
theorem havelenCkloStoresOnly : Obligations.HavelenCkloStoresOnly := by
  unfold Obligations.HavelenCkloStoresOnly
  intro s c hn room
  have index : s.payloadIndex = s.msgLen - 2 := by rw [State.payloadIndex, hn]
  have addr_exists : s.payloadIndex ≠ 255#8 := index ▸ ckLo_address (not_lt_minValidLen room)
  exact ⟨⟨_, execHavelenCklo_eq c addr_exists, State.event_none rfl, index ▸ Memory.load?_put addr_exists c⟩,
    fun hq => cycle_of_selectedBy ⟨rfl, hq, hn⟩⟩

/-- R86, R117: below length 2 the status is LEN_ERR, with no comparison. -/
theorem lastStatus_of_short {s : State} (short : s.msgLen < 2) (c : Byte) : lastStatus s c = .lenErr :=
  if_pos short

/-- R86: with room for a checksum, checksums that differ give CK_ERR. -/
theorem lastStatus_eq_ckErr {s : State} {c : Byte} (room : 2 ≤ s.msgLen)
    (different : le16 (Memory.byteAt s.buf (s.msgLen - 2).toNat) c ≠ s.calcCk) : lastStatus s c = .ckErr := by
  rw [lastStatus, if_neg (not_lt_minValidLen room), if_neg different]

/-- R86 on what the ports show: identifier, length and checksum stay, the flags and one buffer byte are written. -/
theorem shown_after_havelenLast {s t : State} {c : Byte} (he : Effect (.havelenLast c) s t) :
    t.msgId = s.msgId ∧ t.msgLen = s.msgLen ∧ t.calcCk = s.calcCk ∧ t.frameDone = true ∧
      t.frameStatus = lastStatus s c ∧ t.buf = Memory.put s.buf s.payloadIndex.toNat c := by
  obtain ⟨-, rfl⟩ := he
  exact ⟨rfl, rfl, rfl, rfl, rfl, rfl⟩

/-- R86: below length 2 the last byte reports `LengthError`. -/
theorem event_of_havelenLast_short {s t : State} {c : Byte} (he : Effect (.havelenLast c) s t) (short : s.msgLen < 2) :
    t.event = some (.lengthError s.msgId s.msgLen) := by
  obtain ⟨id_eq, len_eq, -, done, status, -⟩ := shown_after_havelenLast he
  rw [State.event_lenErr done (status.trans (lastStatus_of_short short c)), id_eq, len_eq]

/-- R86, R88: equal checksums report `FrameOk` with the application payload, which the last byte leaves alone. -/
theorem event_of_havelenLast_ok {s t : State} {c : Byte} (he : Effect (.havelenLast c) s t) (hn : s.bytesNeeded = 1)
    (room : 2 ≤ s.msgLen) (equal : le16 (Memory.byteAt s.buf (s.msgLen - 2).toNat) c = s.calcCk) :
    t.event = some (.frameOk s.msgId s.msgLen (Memory.bytes s.buf (s.msgLen.toNat - 2))) := by
  obtain ⟨id_eq, len_eq, -, done, status, hbuf⟩ := shown_after_havelenLast he
  have above : s.msgLen.toNat - 2 ≤ s.payloadIndex.toNat := by
    rw [State.payloadIndex, hn]
    bv_omega
  rw [State.event_ok done (status.trans ((lastStatus_eq_ok_iff room).mpr equal)),
    State.readApp_eq (len_eq ▸ not_lt_minValidLen room), id_eq, len_eq, hbuf, Memory.bytes_put_of_le _ above]

/-- R86, R89: different checksums report `ChecksumMismatch`, with the received one read from the last two places. -/
theorem event_of_havelenLast_ckErr {s t : State} {c : Byte} (he : Effect (.havelenLast c) s t) (hn : s.bytesNeeded = 1)
    (room : 2 ≤ s.msgLen) (different : le16 (Memory.byteAt s.buf (s.msgLen - 2).toNat) c ≠ s.calcCk) :
    t.event = some (.checksumMismatch s.msgId s.msgLen s.calcCk
      (le16 (Memory.byteAt s.buf (s.msgLen - 2).toNat) c)) := by
  obtain ⟨id_eq, len_eq, ck_eq, done, status, hbuf⟩ := shown_after_havelenLast he
  obtain ⟨addr_exists, -⟩ := he
  have index : s.payloadIndex = s.msgLen - 1 := by rw [State.payloadIndex, hn]
  have hi : t.rdData (s.msgLen - 1) = c := by rw [State.rdData_put addr_exists hbuf, if_pos index.symm]
  have apart : s.msgLen - 2 ≠ s.payloadIndex := by
    rw [index]
    bv_omega
  have lo : t.rdData (s.msgLen - 2) = Memory.byteAt s.buf (s.msgLen - 2).toNat := by
    rw [State.rdData_put addr_exists hbuf, if_neg apart, State.rdData_of_ne (ckLo_address (not_lt_minValidLen room))]
  rw [State.event_ckErr done (status.trans (lastStatus_eq_ckErr room different)), id_eq, len_eq, ck_eq, hi, lo]

/-- Settles O18: HAVELEN.LAST's answer has the status `lastStatus`, and each of the three statuses its event. -/
theorem havelenLastDecidesTheFrame : Obligations.HavelenLastDecidesTheFrame := by
  unfold Obligations.HavelenLastDecidesTheFrame
  intro s c hn hlen
  have index : s.payloadIndex = s.msgLen - 1 := by rw [State.payloadIndex, hn]
  have addr_exists : s.payloadIndex ≠ 255#8 := payloadIndex_ne (BitVec.le_of_eq hn.symm) (by bv_omega)
  refine ⟨⟨_, lastStatus s c, execHavelenLast_eq c addr_exists, index ▸ Memory.load?_put addr_exists c, ?short, ?room⟩,
    fun hq => cycle_of_selectedBy ⟨rfl, hq, hn⟩⟩
  case short =>
    exact fun short => ⟨lastStatus_of_short short c, fun _ h => event_of_havelenLast_short (exec_next_iff.mp h) short⟩
  case room =>
    exact fun room => ⟨_, load?_ckLo room,
      fun equal => ⟨(lastStatus_eq_ok_iff room).mpr equal,
        fun _ h => event_of_havelenLast_ok (exec_next_iff.mp h) hn room equal⟩,
      fun different => ⟨lastStatus_eq_ckErr room different,
        fun _ h => event_of_havelenLast_ckErr (exec_next_iff.mp h) hn room different⟩⟩

end Sys2Proof.Proofs

namespace Sys2Proof.Proofs
open Sys2Proof Sys2Proof.Machine

/-! ## The transitions and the whole step (R91) -/

/-- R91 in Idle: the byte alone decides (R74, R75). -/
theorem wholeStep_of_idle {s : State} (hq : s.state = .idle) (c : Byte) :
    wholeStep s c = (s.clearDone.goto (if c = Config.syncByte then .start1 else .idle), none) := by
  simp only [wholeStep, hq]
  rfl

/-- R91 in Start1: the byte alone decides (R76, R77). -/
theorem wholeStep_of_start1 {s : State} (hq : s.state = .start1) (c : Byte) :
    wholeStep s c = (s.clearDone.goto (if c = Config.syncByte then .start2 else .idle), none) := by
  simp only [wholeStep, hq]
  rfl

/-- R91 on the identifier. -/
theorem wholeStep_of_start2 {s t : State} {c : Byte} (hq : s.state = .start2) (he : Effect (.start2Id c) s t) :
    wholeStep s c = (t, t.event) := by
  cases he
  simp only [wholeStep, hq]
  rfl

/-- R91 on a length byte other than 0. -/
theorem wholeStep_of_haveidLen {s t : State} {c : Byte} (hq : s.state = .haveId) (hc : c ≠ 0)
    (he : Effect (.haveidLen c) s t) : wholeStep s c = (t, t.event) := by
  rw [event_of_haveidLen he]
  cases he
  simp only [wholeStep, hq, if_neg hc]
  rfl

/-- R91 on the length byte 0. -/
theorem wholeStep_of_haveidLen0 {s t : State} (hq : s.state = .haveId) (he : Effect (.haveidLen0 0) s t) :
    wholeStep s 0 = (t, t.event) := by
  rw [event_of_haveidLen0 he]
  cases he
  simp only [wholeStep, hq]
  rfl

/-- R91 on an application payload byte: it is fed to the checksum unit. -/
theorem wholeStep_of_havelenData {s t : State} {c : Byte} (hq : s.state = .haveLen) (hn : 2 < s.bytesNeeded)
    (he : Effect (.havelenData c) s t) : wholeStep s c = (t, t.event) := by
  obtain ⟨-, rfl⟩ := he
  have more : s.bytesNeeded > 1 := by bv_omega
  simp only [wholeStep, hq, if_pos more, if_pos (show s.bytesNeeded > 2 from hn)]
  rfl

/-- R91 on the low checksum byte: it is not fed. -/
theorem wholeStep_of_havelenCklo {s t : State} {c : Byte} (hq : s.state = .haveLen) (hn : s.bytesNeeded = 2)
    (he : Effect (.havelenCklo c) s t) : wholeStep s c = (t, t.event) := by
  obtain ⟨-, rfl⟩ := he
  simp only [wholeStep, hq, State.payloadIndex, hn]
  rfl

/-- R91 on the last byte: the length is tested first, then the checksums are compared. -/
theorem wholeStep_of_havelenLast {s t : State} {c : Byte} (hq : s.state = .haveLen) (hn : s.bytesNeeded = 1)
    (he : Effect (.havelenLast c) s t) : wholeStep s c = (t, t.event) := by
  have last : ¬ s.bytesNeeded > 1 := by bv_omega
  obtain ⟨id_eq, len_eq, -, done, status, hbuf⟩ := shown_after_havelenLast he
  have ht := he.2
  simp only [wholeStep, hq, if_neg last]
  by_cases short : s.msgLen < 2
  · rw [if_pos short, event_of_havelenLast_short he short, ht, lastStatus_of_short short]
    rfl
  · have room : 2 ≤ s.msgLen := BitVec.not_lt.mp short
    rw [if_neg short]
    by_cases equal : s.rxCk c = s.calcCk
    · have ok : lastStatus s c = .ok := (lastStatus_eq_ok_iff room).mpr equal
      rw [State.event_ok done (status.trans ok), State.readApp_eq (len_eq ▸ not_lt_minValidLen room), id_eq, len_eq,
        hbuf, ht, ok]
      exact if_pos equal
    · rw [event_of_havelenLast_ckErr he hn room equal, ht, lastStatus_eq_ckErr room equal]
      exact if_neg equal

/-- R91 is what the transitions do together: the whole step gives the selected transition's effect, and the event that
the ports show after it. -/
theorem wholeStep_of_effect {i : Instr} {s t : State} {c : Byte} (hs : SelectedBy i s.state s.bytesNeeded c)
    (he : Effect i s t) : wholeStep s c = (t, t.event) := by
  cases i with
  | idleSync d =>
    obtain ⟨-, hq, sync⟩ := hs
    rw [wholeStep_of_idle hq, if_pos sync, he]
    rfl
  | idleSkip d =>
    obtain ⟨-, hq, other⟩ := hs
    rw [wholeStep_of_idle hq, if_neg other, he]
    rfl
  | start1Sync d =>
    obtain ⟨-, hq, sync⟩ := hs
    rw [wholeStep_of_start1 hq, if_pos sync, he]
    rfl
  | start1Fall d =>
    obtain ⟨-, hq, other⟩ := hs
    rw [wholeStep_of_start1 hq, if_neg other, he]
    rfl
  | start2Id d =>
    obtain ⟨rfl, hq⟩ := hs
    exact wholeStep_of_start2 hq he
  | haveidLen d =>
    obtain ⟨rfl, hq, hc⟩ := hs
    exact wholeStep_of_haveidLen hq hc he
  | haveidLen0 d =>
    obtain ⟨rfl, hq, rfl⟩ := hs
    exact wholeStep_of_haveidLen0 hq he
  | havelenData d =>
    obtain ⟨rfl, hq, hn⟩ := hs
    exact wholeStep_of_havelenData hq hn he
  | havelenCklo d =>
    obtain ⟨rfl, hq, hn⟩ := hs
    exact wholeStep_of_havelenCklo hq hn he
  | havelenLast d =>
    obtain ⟨rfl, hq, hn⟩ := hs
    exact wholeStep_of_havelenLast hq hn he
  | reset | nop | ckClear | ckStep _ | ckValue => exact hs.elim

/-- Settles O38: under R24 a transition is selected and has an effect, which is the whole step. -/
theorem transitionsEqualTheWholeStep : Obligations.TransitionsEqualTheWholeStep := by
  unfold Obligations.TransitionsEqualTheWholeStep
  intro s c hinv
  obtain ⟨i, hs⟩ := exists_selectedBy hinv c
  obtain ⟨t, hcycle, he, -⟩ := exists_cycle_of_selectedBy hinv hs
  rw [wholeStep_of_effect hs he]
  exact ⟨hcycle, rfl⟩

/-! ## What the ports select (R92, R98) -/

/-- R98: the state that an accepted byte leads to. -/
def nextSyncState (q : SyncState) (bytesNeeded c : Byte) : SyncState :=
  match q with
  | .idle    => if c = Config.syncByte then .start1 else .idle
  | .start1  => if c = Config.syncByte then .start2 else .idle
  | .start2  => .haveId
  | .haveId  => if c = 0 then .idle else .haveLen
  | .haveLen => if 1 < bytesNeeded then .haveLen else .idle

/-- Each transition is an edge of the graph (R98). -/
theorem state_of_effect {i : Instr} {s t : State} {c : Byte} (hs : SelectedBy i s.state s.bytesNeeded c)
    (he : Effect i s t) : t.state = nextSyncState s.state s.bytesNeeded c := by
  cases i with
  | idleSync d | start1Sync d | haveidLen0 d =>
    obtain ⟨-, hq, hc⟩ := hs
    cases he
    simp only [nextSyncState, hq, if_pos hc]
    rfl
  | idleSkip d | start1Fall d | haveidLen d =>
    obtain ⟨-, hq, hc⟩ := hs
    cases he
    simp only [nextSyncState, hq, if_neg hc]
    rfl
  | start2Id d =>
    obtain ⟨-, hq⟩ := hs
    cases he
    rw [hq]
    rfl
  | havelenData d | havelenCklo d =>
    obtain ⟨-, hq, hn⟩ := hs
    have more : 1 < s.bytesNeeded := by bv_omega
    obtain ⟨-, rfl⟩ := he
    simp only [nextSyncState, hq, if_pos more]
  | havelenLast d =>
    obtain ⟨-, hq, hn⟩ := hs
    obtain ⟨-, rfl⟩ := he
    rw [hq, hn]
    rfl
  | reset | nop | ckClear | ckStep _ | ckValue => exact hs.elim

/-- R81: the length byte 0 selects HAVEID.LEN0, which records LEN_ERR. -/
theorem frameStatus_of_zero_length {i : Instr} {s t : State} {n : Byte} (hs : SelectedBy i .haveId n 0)
    (he : Effect i s t) : t.frameStatus = .lenErr := by
  cases i with
  | haveidLen0 d =>
    cases he
    rfl
  | _ => simp [SelectedBy] at hs

/-- Settles O25: a reset leads to Idle, an idle cycle stays, and an accepted byte takes the edge of its transition. -/
theorem transitionGraphIsComplete : Obligations.TransitionGraphIsComplete := by
  unfold Obligations.TransitionGraphIsComplete
  intro s t x h
  obtain ⟨hr, rfl⟩ | ⟨hr, hv, rfl⟩ | ⟨hr, hv, i, hs, he⟩ := cycle_cases h
  · simp [hr]
  · simp [hr, hv]
  · have edge := state_of_effect hs he
    have from_state {q : SyncState} (hq : s.state = q) : t.state = nextSyncState q s.bytesNeeded x.inData := hq ▸ edge
    refine ⟨by simp [hr], by simp [hv], fun _ _ => ⟨from_state, from_state, from_state, from_state, fun hq hc => ?_,
      from_state⟩⟩
    rw [hq, hc] at hs
    exact frameStatus_of_zero_length hs he

/-- R92: ports without a reset and with a byte are a byte's cycle. -/
theorem eq_byte_of_ports {x : CycleIn} (hr : x.rst = false) (hv : x.inValid = true) : x = .byte x.inData := by
  cases x
  cases hr
  cases hv
  rfl

/-- Settles O2: the ports choose between RESET, the transition that the byte selects, and NOP. -/
theorem cycleFollowsThePorts : Obligations.CycleFollowsThePorts := by
  unfold Obligations.CycleFollowsThePorts
  intro s x
  refine ⟨fun hr => ?reset, fun hr hv => ⟨fun i hi => ?transition, fun hinv => ?wholeStep⟩, fun hr hv => ?nop⟩
  case reset =>
    have hcycle : cycle x s = exec .reset s := cycle_of_decode (decode_iff.mpr (.inl ⟨hr, rfl⟩))
    exact ⟨hcycle, hcycle⟩
  case transition => exact cycle_of_decode (decode_iff.mpr (.inr (.inr ⟨hr, hv, decodeByte_iff.mp hi⟩)))
  case wholeStep =>
    rw [eq_byte_of_ports hr hv]
    exact (transitionsEqualTheWholeStep s x.inData hinv).1
  case nop => exact cycle_of_decode (decode_iff.mpr (.inr (.inl ⟨hr, hv, rfl⟩)))

end Sys2Proof.Proofs

namespace Sys2Proof.Proofs
open Sys2Proof Sys2Proof.Machine

/-! ## Runs under R24, and idle cycles (R60, R93, R95) -/

/-- R60 for a cycle: whatever stands at the ports, R24 gives a next state, which meets R24 again. -/
theorem exists_cycle {s : State} (hinv : Inv s) (x : CycleIn) : ∃ t, cycle x s = .next t ∧ Inv t :=
  noInputStopsTheMachine { s with inputs := x :: s.inputs } { hinv with }

/-- R60 along a run over any bytes. -/
theorem exists_feed {s : State} (hinv : Inv s) (w : List Byte) : ∃ t es, feed w s = .next (t, es) ∧ Inv t := by
  induction w generalizing s with
  | nil => exact ⟨s, [], feed_nil s, hinv⟩
  | cons c w ih =>
    obtain ⟨t, hcycle, hinvt⟩ := exists_cycle hinv (.byte c)
    obtain ⟨u, es, hfeed, hinvu⟩ := ih hinvt
    exact ⟨u, _, feed_cons hcycle hfeed, hinvu⟩

/-- R24 holds again after a run over bytes. -/
theorem inv_of_feed {s t : State} {w : List Byte} {es : List Event} (hinv : Inv s) (h : feed w s = .next (t, es)) :
    Inv t := by
  obtain ⟨u, fs, hu, hinvu⟩ := exists_feed hinv w
  cases h.symm.trans hu
  exact hinvu

/-- Settles O40: both runs exist under R24, and joined they are the run over the joined bytes. -/
theorem chunkingDoesNotMatter : Obligations.ChunkingDoesNotMatter := by
  unfold Obligations.ChunkingDoesNotMatter
  intro s x y hinv
  obtain ⟨t, es, hx, hinvt⟩ := exists_feed hinv x
  obtain ⟨u, fs, hy, -⟩ := exists_feed hinvt y
  exact ⟨t, es, u, fs, hx, hy, feed_append_iff.mpr ⟨t, es, fs, hx, hy, rfl⟩⟩

/-- Whatever a cycle selects writes `frame_done` without reading it; only the micro-operations leave it (R15). -/
theorem exec_clearDone {i : Instr} (h : i.isMicroOp = false) (s : State) : exec i s.clearDone = exec i s := by
  cases i with
  | ckClear | ckStep _ | ckValue => nomatch h
  | _ => rfl

/-- A cycle that selects nothing is refused. -/
theorem cycle_of_decode_error {x : CycleIn} {s : State} {e : DecodeError}
    (h : decode { ports := x, state := s.state, bytesNeeded := s.bytesNeeded } = .error e) :
    cycle x s = .refused .noTransition := by
  simp [cycle, step, State.selection, h]

/-- So no cycle depends on the pulse of the cycle before it. -/
theorem cycle_clearDone (x : CycleIn) (s : State) : cycle x s.clearDone = cycle x s := by
  cases hd : decode { ports := x, state := s.state, bytesNeeded := s.bytesNeeded } with
  | ok i =>
    rw [cycle_of_decode hd, cycle_of_decode (s := s.clearDone) hd]
    exact exec_clearDone (isMicroOp_of_decode hd) s
  | error e => rw [cycle_of_decode_error hd, cycle_of_decode_error (s := s.clearDone) hd]

/-- Nor does a run, except that a run of no cycle ends where it began. -/
theorem exists_run_of_run_clearDone {xs : List CycleIn} {s u : State} {es : List Event}
    (h : run xs s.clearDone = .next (u, es)) : ∃ t, run xs s = .next (t, es) ∧ SameButDone t u := by
  cases xs with
  | nil =>
    cases h
    exact ⟨s, rfl, rfl⟩
  | cons x xs =>
    rw [run, cycle_clearDone] at h
    exact ⟨u, h, rfl⟩

/-- R93 along a run without a reset, by induction on its cycles: a byte's cycle stands in both runs, and an idle cycle
only clears the pulse, on which nothing that follows depends. -/
theorem exists_run_without_idle {s : State} {xs : List CycleIn} (hinv : Inv s) (no_reset : ∀ x ∈ xs, x.rst = false) :
    ∃ t u es, run xs s = .next (t, es) ∧ run (xs.filter CycleIn.inValid) s = .next (u, es) ∧ SameButDone t u := by
  induction xs generalizing s with
  | nil => exact ⟨s, s, [], rfl, rfl, rfl⟩
  | cons x xs ih =>
    obtain ⟨hr, no_reset⟩ := List.forall_mem_cons.mp no_reset
    obtain ⟨s', hcycle, hinv'⟩ := exists_cycle hinv x
    obtain ⟨t, u, es, hall, hbytes, same⟩ := ih hinv' no_reset
    cases hv : x.inValid with
    | true =>
      rw [List.filter_cons_of_pos hv]
      exact ⟨t, u, _, run_cons hcycle hall, run_cons hcycle hbytes, same⟩
    | false =>
      rw [List.filter_cons_of_neg (by simp [hv])]
      obtain rfl : s' = s.clearDone := by
        obtain ⟨hr', -⟩ | ⟨-, -, he⟩ | ⟨-, hv', -⟩ := cycle_cases hcycle
        · simp [hr] at hr'
        · exact he
        · simp [hv] at hv'
      obtain ⟨u', hbytes', same'⟩ := exists_run_of_run_clearDone hbytes
      exact ⟨t, u', es, run_cons hcycle hall, hbytes', same.trans same'.symm⟩

/-- Settles O41: what an idle cycle does, and that leaving idle cycles out changes nothing but the pulse. -/
theorem idleCyclesAreInvisible : Obligations.IdleCyclesAreInvisible := by
  unfold Obligations.IdleCyclesAreInvisible
  exact ⟨cycle_idle, fun _ _ => exists_run_without_idle⟩

end Sys2Proof.Proofs

namespace Sys2Proof.Proofs
open Sys2Proof Sys2Proof.Machine

/-! ## Frames in a stream (R103, R104, R107) -/

/-- A frame whose checksum bytes may be damaged: `Frame` (R50) and `BadFrame` (R62) are two of them. -/
def frameWithCk (id : Byte) (app : List Byte) (ck : Word16) : List Byte :=
  syncWord ++ [id, frameLen app] ++ (app ++ ckBytes ck)

theorem frame_eq_frameWithCk (id : Byte) (app : List Byte) : frame id app = frameWithCk id app (frameCk id app) :=
  List.append_assoc ..

theorem badFrame_eq_frameWithCk (id : Byte) (app : List Byte) (e : Word16) :
    badFrame id app e = frameWithCk id app (frameCk id app ^^^ e) :=
  List.append_assoc ..

/-- R47: the length byte counts the checksum bytes too. -/
theorem length_append_ckBytes {app : List Byte} (short : app.length ≤ 253) (ck : Word16) :
    (app ++ ckBytes ck).length = (frameLen app).toNat := by
  rw [frameLen_toNat short, List.length_append]
  rfl

/-- What such a frame is reported as: it is good exactly if it carries its own checksum. -/
def sentOutcome (id : Byte) (app : List Byte) (ck : Word16) : Event :=
  if frameCk id app = ck then .frameOk id (frameLen app) app
  else .checksumMismatch id (frameLen app) (frameCk id app) ck

/-- R82 for a sender's frame: its application payload is long enough for a checksum, and the received checksum is the
one sent. -/
theorem frameOutcome_append_ckBytes (id : Byte) {app : List Byte} (short : app.length ≤ 253) (ck : Word16) :
    frameOutcome id (frameLen app) (app ++ ckBytes ck) = sentOutcome id app ck := by
  have len_eq := frameLen_toNat short
  have room : ¬ frameLen app < 2 := by bv_omega
  have payload : (app ++ ckBytes ck).take ((frameLen app).toNat - 2) = app := by
    rw [len_eq, Nat.add_sub_cancel, List.take_left]
  have received : le16 ((app ++ ckBytes ck).getD ((frameLen app).toNat - 2) 0)
      ((app ++ ckBytes ck).getD ((frameLen app).toNat - 1) 0) = ck := by
    simp [len_eq, ckBytes, le16_extract]
  rw [frameOutcome, if_neg room, payload, received]
  exact if_congr (by rw [verify_iff, received, frameCk]) rfl rfl

/-- R106 on a sender's frame: no event before its last byte, then its outcome, in Idle and under R24 again. -/
theorem feed_frameWithCk {s : State} (hinv : Inv s) (hq : s.state = .idle) (id : Byte) {app : List Byte}
    (short : app.length ≤ 253) (ck : Word16) :
    (∃ t, feed (frameWithCk id app ck) s = .next (t, [sentOutcome id app ck]) ∧ t.state = .idle ∧ Inv t) ∧
    ∃ u, feed (frameWithCk id app ck).dropLast s = .next (u, []) := by
  have count := length_append_ckBytes short ck
  obtain ⟨quiet, t, hfeed, hidle⟩ := everyFrameHasThisOutcome s id (frameLen app) (app ++ ckBytes ck) hinv hq count
  rw [← frameOutcome_append_ckBytes id short]
  refine ⟨⟨t, hfeed, hidle, inv_of_feed hinv hfeed⟩, ?_⟩
  rw [List.dropLast_eq_take]
  refine quiet _ ?_
  rw [frameWithCk, List.length_append, count]
  simp [syncWord]

/-- R103 with R24 after it: a valid frame decodes. -/
theorem feed_frame {s : State} (hinv : Inv s) (hq : s.state = .idle) (id : Byte) {app : List Byte}
    (short : app.length ≤ 253) :
    ∃ t, feed (frame id app) s = .next (t, [.frameOk id (frameLen app) app]) ∧ t.state = .idle ∧ Inv t := by
  have good : sentOutcome id app (frameCk id app) = .frameOk id (frameLen app) app := if_pos rfl
  rw [frame_eq_frameWithCk, ← good]
  exact (feed_frameWithCk hinv hq id short _).1

/-- Settles O45: the frame's own checksum is received. -/
theorem validFrameDecodes : Obligations.ValidFrameDecodes := by
  unfold Obligations.ValidFrameDecodes
  intro s id app hinv hq short
  obtain ⟨t, hfeed, hidle, -⟩ := feed_frame hinv hq id short
  refine ⟨⟨t, hfeed, hidle⟩, ?_⟩
  rw [frame_eq_frameWithCk]
  exact (feed_frameWithCk hinv hq id short _).2

/-- R104 with R24 after it: a checksum that is damaged differs from the calculated one. -/
theorem feed_badFrame {s : State} (hinv : Inv s) (hq : s.state = .idle) (id : Byte) {app : List Byte}
    (short : app.length ≤ 253) {e : Word16} (he : e ≠ 0) :
    ∃ t, feed (badFrame id app e) s = .next (t, [.checksumMismatch id (frameLen app) (frameCk id app)
      (frameCk id app ^^^ e)]) ∧ t.state = .idle ∧ Inv t := by
  have damaged : frameCk id app ≠ frameCk id app ^^^ e := fun same =>
    he ((BitVec.xor_right_inj (frameCk id app)).mp (same.symm.trans BitVec.xor_zero.symm))
  have mismatch : sentOutcome id app (frameCk id app ^^^ e) =
      .checksumMismatch id (frameLen app) (frameCk id app) (frameCk id app ^^^ e) := if_neg damaged
  rw [badFrame_eq_frameWithCk, ← mismatch]
  exact (feed_frameWithCk hinv hq id short _).1

/-- Settles O46: after the damaged frame the block is in Idle under R24, where the next frame decodes. -/
theorem damagedChecksumDropsOneFrame : Obligations.DamagedChecksumDropsOneFrame := by
  unfold Obligations.DamagedChecksumDropsOneFrame
  intro s id app e hinv hq short he
  obtain ⟨t, hbad, hidle, hinvt⟩ := feed_badFrame hinv hq id short he
  refine ⟨⟨t, hbad, hidle⟩, fun id2 app2 short2 => ?_⟩
  obtain ⟨u, hnext, -⟩ := feed_frame hinvt hidle id2 short2
  exact ⟨u, feed_append_iff.mpr ⟨t, _, _, hbad, hnext, rfl⟩⟩

/-- Settles O49, by induction on the list of frames: each leaves the block in Idle under R24. -/
theorem backToBackFramesDecode : Obligations.BackToBackFramesDecode := by
  unfold Obligations.BackToBackFramesDecode
  intro s fs hinv hq short
  induction fs generalizing s with
  | nil => exact ⟨s, feed_nil s, hq⟩
  | cons f fs ih =>
    obtain ⟨short_f, short_fs⟩ := List.forall_mem_cons.mp short
    obtain ⟨t, hframe, hidle, hinvt⟩ := feed_frame hinv hq f.1 short_f
    obtain ⟨u, hrest, hidleu⟩ := ih t hinvt hidle short_fs
    rw [List.flatMap_cons]
    exact ⟨u, feed_append_iff.mpr ⟨t, _, _, hframe, hrest, rfl⟩, hidleu⟩

/-! ## Sync bytes and garbage (R74 to R77, R105) -/

/-- R74: a sync byte leads to Start1. -/
theorem feed_idleSync {s : State} (hq : s.state = .idle) :
    feed [Config.syncByte] s = .next (s.clearDone.goto .start1, []) :=
  feed_singleton (((cycle_byte_of_idle hq _).1 rfl).trans (exec_next_iff.mpr rfl))

/-- R76: a second one leads to Start2. -/
theorem feed_start1Sync {s : State} (hq : s.state = .start1) :
    feed [Config.syncByte] s = .next (s.clearDone.goto .start2, []) :=
  feed_singleton (((cycle_byte_of_start1 hq _).1 rfl).trans (exec_next_iff.mpr rfl))

/-- A state in Idle that goes to Idle loses at most the pulse. -/
theorem goto_idle_of_idle {s : State} (hq : s.state = .idle) : s.clearDone.goto .idle = s.clearDone := by
  rw [State.goto, ← hq]
  rfl

/-- R75: a byte other than the sync byte leaves Idle as it is, but for the pulse. -/
theorem feed_skip {s : State} (hq : s.state = .idle) {c : Byte} (hc : c ≠ Config.syncByte) :
    feed [c] s = .next (s.clearDone, []) := by
  rw [← goto_idle_of_idle hq]
  exact feed_singleton (((cycle_byte_of_idle hq c).2 hc).trans (exec_next_iff.mpr rfl))

/-- R74, R77: so do a sync byte and another byte after it. -/
theorem feed_fall {s : State} (hq : s.state = .idle) {d : Byte} (hd : d ≠ Config.syncByte) :
    feed [Config.syncByte, d] s = .next (s.clearDone, []) := by
  have fall : cycle (.byte d) (s.clearDone.goto .start1) = .next (s.clearDone.goto .idle) :=
    ((cycle_byte_of_start1 rfl d).2 hd).trans (exec_next_iff.mpr rfl)
  rw [goto_idle_of_idle hq] at fall
  exact feed_append_quiet (feed_idleSync hq) (feed_singleton fall)

/-- What is left of clean garbage is clean. -/
theorem cleanGarbage_of_cons {c : Byte} {w : List Byte} (h : CleanGarbage (c :: w)) : CleanGarbage w := by
  obtain ⟨apart, last⟩ := h
  refine ⟨fun i => apart (i + 1), ?_⟩
  cases w with
  | nil => nofun
  | cons d w => exact last

/-- R105: clean garbage leaves Idle as it is, but for the pulse. A sync byte in it is followed by another byte, so the
induction takes one byte or two. -/
theorem feed_cleanGarbage {s : State} {g : List Byte} (hq : s.state = .idle) (clean : CleanGarbage g) :
    ∃ t, feed g s = .next (t, []) ∧ SameButDone s t := by
  induction g using List.twoStepInduction generalizing s with
  | nil => exact ⟨s, feed_nil s, rfl⟩
  | singleton c =>
    have other : c ≠ Config.syncByte := by simpa [CleanGarbage] using clean.2
    exact ⟨s.clearDone, feed_skip hq other, rfl⟩
  | cons_cons c d g ih_two ih_one =>
    by_cases sync : c = Config.syncByte
    · have other : d ≠ Config.syncByte := by simpa [sync] using clean.1 0
      obtain ⟨t, hrest, same⟩ := ih_two (s := s.clearDone) hq (cleanGarbage_of_cons (cleanGarbage_of_cons clean))
      exact ⟨t, sync ▸ feed_append_quiet (feed_fall hq other) hrest, same⟩
    · obtain ⟨t, hrest, same⟩ := ih_one d (s := s.clearDone) hq (cleanGarbage_of_cons clean)
      exact ⟨t, feed_append_quiet (feed_skip hq sync) hrest, same⟩

/-- Settles O47: clean garbage leaves the block in Idle under R24, where the next frame decodes. -/
theorem cleanGarbageIsSkipped : Obligations.CleanGarbageIsSkipped := by
  unfold Obligations.CleanGarbageIsSkipped
  intro s g hinv hq clean
  obtain ⟨t, hgarbage, same⟩ := feed_cleanGarbage hq clean
  have hidle : t.state = .idle := (congrArg State.state same).symm.trans hq
  refine ⟨⟨t, hgarbage, hidle, same⟩, fun id app short => ?_⟩
  obtain ⟨u, hframe, hidleu, -⟩ := feed_frame (inv_of_feed hinv hgarbage) hidle id short
  exact ⟨u, feed_append_iff.mpr ⟨t, [], _, hgarbage, hframe, rfl⟩, hidleu⟩

/-! ## How many bytes a frame consumes (R106) -/

/-- R106 before the last byte: each byte of a frame but its last leads to a state other than Idle, without an event. -/
theorem feed_take_frame {s : State} {id len : Byte} {w : List Byte} {k : Nat} (hinv : Inv s) (hq : s.state = .idle)
    (hw : w.length = len.toNat) (hk : 0 < k) (hk' : k < 4 + len.toNat) :
    ∃ u, feed ((syncWord ++ [id, len] ++ w).take k) s = .next (u, []) ∧ u.state ≠ .idle := by
  have hsync := feed_idleSync hq
  obtain ⟨a, hheader, hinva, hqa, -⟩ := feed_sync_id hinv hq id
  match k with
  | 1 => exact ⟨_, hsync, nofun⟩
  | 2 => exact ⟨_, feed_append_quiet hsync (feed_start1Sync rfl), nofun⟩
  | 3 => exact ⟨a, hheader, by simp [hqa]⟩
  | j + 4 =>
    have more : ([] : List Byte).length + (w.take j).length < len.toNat := by
      rw [List.length_nil, List.length_take]
      omega
    have len_ne : len ≠ 0 := by
      rintro rfl
      exact Nat.not_lt_zero _ more
    obtain ⟨b, hcycle, hquiet, hb⟩ := cycle_haveidLen hinva hqa len_ne
    obtain ⟨u, hpayload, hu⟩ := hb.feed_append more
    have hlength : feed [len] a = .next (b, []) := by simpa [hquiet] using feed_singleton hcycle
    exact ⟨u, feed_append_quiet (feed_append_quiet hheader hlength) hpayload, by simp [hu.state_eq]⟩

/-- Settles O48: the outcome of R82 is the one event, and before it the block is inside the frame. -/
theorem frameConsumesFourPlusLength : Obligations.FrameConsumesFourPlusLength := by
  unfold Obligations.FrameConsumesFourPlusLength
  intro s id len w hinv hq hw
  obtain ⟨-, t, hfeed, hidle⟩ := everyFrameHasThisOutcome s id len w hinv hq hw
  exact ⟨⟨t, _, hfeed, hidle⟩, fun _ hk hk' => feed_take_frame hinv hq hw hk hk'⟩

end Sys2Proof.Proofs

namespace Sys2Proof.Proofs
open Sys2Proof Sys2Proof.Machine

/-! ## Idle is reached again within 258 bytes (`60_exceptions.md`, R121) -/

/-- The most bytes that can follow in a frame begun (R121): Start1 may still take a sync byte, an identifier, a length
byte and 255 payload bytes, and HaveLen takes what its counter says. -/
def bytesToIdle (s : State) : Nat :=
  match s.state with
  | .idle    => 0
  | .start1  => 258
  | .start2  => 257
  | .haveId  => 256
  | .haveLen => s.bytesNeeded.toNat

theorem bytesToIdle_le (s : State) : bytesToIdle s ≤ 258 := by
  unfold bytesToIdle
  cases s.state with
  | haveLen => exact Nat.le_of_lt (Nat.lt_trans s.bytesNeeded.isLt (by decide))
  | _ => simp

/-- Only in Idle is no byte left: in HaveLen the counter is at least 1 (R24 item 3). -/
theorem bytesToIdle_pos {s : State} (hinv : Inv s) (busy : s.state ≠ .idle) : 0 < bytesToIdle s := by
  unfold bytesToIdle
  cases hq : s.state with
  | idle => exact absurd hq busy
  | haveLen => exact (hinv.needsSome hq).1
  | start1 | start2 | haveId => simp

/-- Outside Idle every transition takes one of the bytes left, or ends the frame. -/
theorem bytesToIdle_lt_of_effect {i : Instr} {s t : State} {c : Byte} (hinv : Inv s) (busy : s.state ≠ .idle)
    (hs : SelectedBy i s.state s.bytesNeeded c) (he : Effect i s t) : bytesToIdle t < bytesToIdle s := by
  have more := bytesToIdle_pos hinv busy
  cases i with
  | idleSync d | idleSkip d =>
    obtain ⟨-, hq, -⟩ := hs
    exact absurd hq busy
  | start1Fall d | haveidLen0 d =>
    cases he
    exact more
  | havelenLast d =>
    obtain ⟨-, rfl⟩ := he
    exact more
  | start1Sync d =>
    obtain ⟨-, hq, -⟩ := hs
    cases he
    simp [bytesToIdle, hq]
  | start2Id d =>
    obtain ⟨-, hq⟩ := hs
    cases he
    simp [bytesToIdle, hq]
  | haveidLen d =>
    obtain ⟨-, hq, -⟩ := hs
    cases he
    simpa [bytesToIdle, hq] using d.isLt
  | havelenData d | havelenCklo d =>
    obtain ⟨-, hq, hn⟩ := hs
    obtain ⟨-, rfl⟩ := he
    simp only [bytesToIdle, hq]
    bv_omega
  | reset | nop | ckClear | ckStep _ | ckValue => exact hs.elim

/-- So does every byte, and R24 holds again. -/
theorem exists_cycle_nearer_idle {s : State} (hinv : Inv s) (busy : s.state ≠ .idle) (c : Byte) :
    ∃ t, cycle (.byte c) s = .next t ∧ Inv t ∧ bytesToIdle t < bytesToIdle s := by
  obtain ⟨i, hs⟩ := exists_selectedBy hinv c
  obtain ⟨t, hcycle, he, hinvt⟩ := exists_cycle_of_selectedBy hinv hs
  exact ⟨t, hcycle, hinvt, bytesToIdle_lt_of_effect hinv busy hs he⟩

/-- Whatever the bytes are, one of the first `bytesToIdle s` of them leads to Idle. -/
theorem exists_take_idle {s : State} {w : List Byte} (hinv : Inv s) (enough : bytesToIdle s ≤ w.length) :
    ∃ k, k ≤ bytesToIdle s ∧ ∃ t es, feed (w.take k) s = .next (t, es) ∧ t.state = .idle := by
  induction w generalizing s with
  | nil =>
    have hq : s.state = .idle := by
      by_contra busy
      exact absurd enough (bytesToIdle_pos hinv busy).not_ge
    exact ⟨0, Nat.zero_le _, s, [], feed_nil s, hq⟩
  | cons c w ih =>
    by_cases hq : s.state = .idle
    · exact ⟨0, Nat.zero_le _, s, [], feed_nil s, hq⟩
    · obtain ⟨t, hcycle, hinvt, nearer⟩ := exists_cycle_nearer_idle hinv hq c
      obtain ⟨k, hk, u, es, hfeed, hidle⟩ := ih hinvt (Nat.le_of_lt_succ (nearer.trans_le enough))
      exact ⟨k + 1, (Nat.succ_le_succ hk).trans nearer, u, _, feed_cons hcycle hfeed, hidle⟩

/-- The bound is met: from Start1 a sync byte, an identifier, the length byte 255 and 255 payload bytes lead to Idle
with the last of them only, because they end a frame of 259 bytes (R106). -/
theorem feed_take_longest_frame {s : State} (hinv : Inv s) (hq : s.state = .idle) (id : Byte) {p : List Byte}
    (hp : p.length = 255) {k : Nat} (hk : k < 258) :
    ∃ t es, feed ((Config.syncByte :: id :: 255 :: p).take k) (s.clearDone.goto .start1) = .next (t, es) ∧
      t.state ≠ .idle := by
  have count : p.length = (255 : Byte).toNat := hp
  obtain ⟨u, hframe, busy⟩ := feed_take_frame (k := k + 1) (id := id) hinv hq count k.succ_pos (Nat.succ_lt_succ hk)
  obtain ⟨t, es, hcycle, hrest, -⟩ := feed_cons_iff.mp hframe
  cases ((cycle_byte_of_idle hq _).1 rfl).symm.trans hcycle
  exact ⟨u, es, hrest, busy⟩

/-- The invariants of R24 in the state after reset. -/
theorem inv_reset : Inv State.reset :=
  inv_of_outside_frame nofun nofun rfl nofun ⟨.nil, nofun⟩

/-- Settles O37: every run over bytes exists under R24; each byte outside Idle leaves fewer of at most 258; and the
longest frame, begun after reset, needs all of them. -/
theorem idleIsReachedWithin258Bytes : Obligations.IdleIsReachedWithin258Bytes := by
  unfold Obligations.IdleIsReachedWithin258Bytes
  refine ⟨fun s w hinv => exists_feed hinv w, fun s w hinv _ enough => ?within, ?tight⟩
  case within =>
    obtain ⟨k, hk, reached⟩ := exists_take_idle hinv ((bytesToIdle_le s).trans enough)
    exact ⟨k, hk.trans (bytesToIdle_le s), reached⟩
  case tight =>
    obtain ⟨p, hp⟩ : ∃ p : List Byte, p.length = 255 := ⟨List.replicate 255 0, List.length_replicate⟩
    exact ⟨State.reset.clearDone.goto .start1, Config.syncByte :: 0 :: 255 :: p,
      inv_of_feed inv_reset (feed_idleSync rfl), rfl, congrArg (· + 3) hp,
      fun _ hk => feed_take_longest_frame inv_reset rfl 0 hp hk⟩

/-! ## Raising a condition (`60_exceptions.md`, R115) -/

/-- The read port shows what a read of an existing address gives. -/
theorem rdData_of_load? {s : State} {a v : Byte} (h : Memory.load? s.buf a = some v) : s.rdData a = v := by
  rw [State.rdData, h, Option.getD_some]

/-- R89: `ChecksumMismatch` carries the computed checksum and the received one, low byte first in the buffer. -/
theorem event_of_raise_checksumMismatch {s : State} {lo hi : Byte}
    (hlo : Memory.load? s.buf (s.msgLen - 2) = some lo) (hhi : Memory.load? s.buf (s.msgLen - 1) = some hi) :
    (s.raise .checksumMismatch).event = some (.checksumMismatch s.msgId s.msgLen s.calcCk (le16 lo hi)) := by
  have low : (s.raise .checksumMismatch).rdData (s.msgLen - 2) = lo := rdData_of_load? hlo
  have high : (s.raise .checksumMismatch).rdData (s.msgLen - 1) = hi := rdData_of_load? hhi
  rw [State.event_ckErr rfl rfl, State.raise_msgLen, low, high]
  rfl

/-- Settles O23: each raising is one update of the state, and the event is what the ports show of it. -/
theorem raisingReportsAndReturnsToIdle : Obligations.RaisingReportsAndReturnsToIdle := by
  unfold Obligations.RaisingReportsAndReturnsToIdle
  intro s
  exact ⟨rfl, rfl, rfl, rfl, rfl, rfl, State.event_lenErr rfl rfl, fun _ _ => event_of_raise_checksumMismatch⟩

end Sys2Proof.Proofs

namespace Sys2Proof.Proofs
open Sys2Proof Sys2Proof.Machine

/-! ## Reset (`70_reset_and_hazards.md`, R129) -/

/-- R129: with `rst` at 1 neither the other ports nor the registers have a say; RESET keeps `buf`, and the queue with
it, and sets the rest. -/
theorem cycle_of_rst {x : CycleIn} (hr : x.rst = true) (s : State) :
    cycle x s = .next { State.reset with buf := s.buf, inputs := s.inputs } :=
  cycle_of_decode (decode_iff.mpr (.inl ⟨hr, rfl⟩))

/-- Settles O20: a reset cycle reads nothing of the state but what it keeps, so the second one, from the state that the
first one leaves, answers the same; and no completion is pending there. -/
theorem resetCycleResult : Obligations.ResetCycleResult := by
  unfold Obligations.ResetCycleResult
  intro s x hr
  refine ⟨{ State.reset with buf := s.buf, inputs := s.inputs }, ?exec, cycle_of_rst hr s, ?second, ?event, ?registers⟩
  case exec => exact exec_next_iff.mpr rfl
  case second => exact cycle_of_rst hr _
  case event => exact State.event_none State.reset_frameDone
  case registers => rfl

end Sys2Proof.Proofs

namespace Sys2Proof.Proofs
open Sys2Proof Sys2Proof.Machine

/-! ## R24 along steps and runs -/

/-- Settles O34: a step is the effect of the instruction it decodes, which keeps R24. -/
theorem everyStepKeepsTheInvariants : Obligations.EveryStepKeepsTheInvariants := by
  unfold Obligations.EveryStepKeepsTheInvariants
  intro s t hinv h
  obtain ⟨i, hd, hexec⟩ := step_next h
  exact inv_of_effect (inv_consume hinv) hd (exec_next_iff.mp hexec)

/-- So does a cycle, whatever stands at the ports. -/
theorem inv_of_cycle {x : CycleIn} {s t : State} (hinv : Inv s) (h : cycle x s = .next t) : Inv t :=
  everyStepKeepsTheInvariants { s with inputs := x :: s.inputs } t { hinv with } h

/-- R24 after a reset cycle: of the state before it the buffer's canonical form is all that counts. -/
theorem inv_reset_of_wf {m : Memory} (wf : Memory.Wf m) (xs : List CycleIn) :
    Inv { State.reset with buf := m, inputs := xs } :=
  inv_of_outside_frame nofun nofun rfl nofun wf

/-- Settles O33: the reset state is in Idle with the counter at 1, no pulse and an empty list of cells. -/
theorem invariantsHoldAtReset : Obligations.InvariantsHoldAtReset := by
  unfold Obligations.InvariantsHoldAtReset
  exact inv_reset_of_wf Memory.wf_nil

/-- Settles O35, by induction on the run: R24 holds at reset and every step keeps it. -/
theorem reachableStatesMeetTheInvariants : Obligations.ReachableStatesMeetTheInvariants := by
  unfold Obligations.ReachableStatesMeetTheInvariants
  intro s hs
  induction hs with
  | reset xs => exact invariantsHoldAtReset xs
  | step _ hstep ih => exact everyStepKeepsTheInvariants _ _ ih hstep

/-- Settles O39, by induction on the bytes: each cycle is the whole step (R91) and keeps R24, so the rest follows. -/
theorem runsEqualTheWholeRun : Obligations.RunsEqualTheWholeRun := by
  unfold Obligations.RunsEqualTheWholeRun
  intro s w hinv
  induction w generalizing s with
  | nil => exact feed_nil s
  | cons c w ih =>
    obtain ⟨hcycle, hevent⟩ := transitionsEqualTheWholeStep s c hinv
    have rest := ih (wholeStep s c).1 (inv_of_cycle hinv hcycle)
    rw [wholeRun, ← hevent]
    exact feed_cons hcycle rest

/-- Settles O53: after the reset cycle nothing of the state is left but its buffer and queue, and no event is due. -/
theorem resetForgetsTheFrameInProgress : Obligations.ResetForgetsTheFrameInProgress := by
  unfold Obligations.ResetForgetsTheFrameInProgress
  intro s x w hr hinv
  obtain ⟨t, es, hfeed, -⟩ := exists_feed (inv_reset_of_wf hinv.bufWf s.inputs) w
  exact ⟨t, es, run_cons (cycle_of_rst hr s) hfeed, hfeed⟩

end Sys2Proof.Proofs

namespace Sys2Proof.Proofs
open Sys2Proof Sys2Proof.Machine

/-! ## The selection word (log entry 4) and the machine-readable table (R55) -/

/-- What bytes decode to is what the selection they write down decodes to. -/
theorem decodeBytes_iff {w : List Byte} {i : Instr} :
    decodeBytes w = .ok i ↔ ∃ p, selectionOfBytes w = .ok p ∧ decode p = .ok i := by
  unfold decodeBytes
  cases selectionOfBytes w <;> simp

/-- Only four bytes write down a selection. -/
theorem length_of_selectionOfBytes {w : List Byte} {p : Selection} (h : selectionOfBytes w = .ok p) : w.length = 4 := by
  unfold selectionOfBytes at h
  split at h
  · rfl
  · cases h

/-- The word of a byte accepted in a state with a counter decodes to the transition that these select. -/
theorem decodeBytes_of_selectedBy {i : Instr} {q : SyncState} {n c : Byte} (hs : SelectedBy i q n c) :
    decodeBytes [c, q.code, n, 0] = .ok i := by
  refine decodeBytes_iff.mpr ⟨{ ports := .byte c, state := q, bytesNeeded := n }, ?_, decodeByte_iff.mpr hs⟩
  simp only [selectionOfBytes, stateOfCode_code]
  rfl

/-- The word of a well-formed instruction: the row's state with the smallest counter that its guard accepts selects the
instruction again. -/
theorem decodeBytes_encode {i : Instr} (wf : i.wellFormed = true) (h : i.isMicroOp = false) :
    ∃ w, encode i = some w ∧ w.length = 4 ∧ decodeBytes w = .ok i := by
  cases i with
  | idleSync c => exact ⟨_, rfl, rfl, decodeBytes_of_selectedBy (q := .idle) ⟨rfl, rfl, eq_of_beq wf⟩⟩
  | idleSkip c => exact ⟨_, rfl, rfl, decodeBytes_of_selectedBy (q := .idle) ⟨rfl, rfl, bne_iff_ne.mp wf⟩⟩
  | start1Sync c => exact ⟨_, rfl, rfl, decodeBytes_of_selectedBy (q := .start1) ⟨rfl, rfl, eq_of_beq wf⟩⟩
  | start1Fall c => exact ⟨_, rfl, rfl, decodeBytes_of_selectedBy (q := .start1) ⟨rfl, rfl, bne_iff_ne.mp wf⟩⟩
  | start2Id c => exact ⟨_, rfl, rfl, decodeBytes_of_selectedBy (q := .start2) ⟨rfl, rfl⟩⟩
  | haveidLen c => exact ⟨_, rfl, rfl, decodeBytes_of_selectedBy (q := .haveId) ⟨rfl, rfl, bne_iff_ne.mp wf⟩⟩
  | haveidLen0 c => exact ⟨_, rfl, rfl, decodeBytes_of_selectedBy (q := .haveId) ⟨rfl, rfl, eq_of_beq wf⟩⟩
  | havelenData c => exact ⟨_, rfl, rfl, decodeBytes_of_selectedBy (q := .haveLen) ⟨rfl, rfl, by decide⟩⟩
  | havelenCklo c => exact ⟨_, rfl, rfl, decodeBytes_of_selectedBy (q := .haveLen) ⟨rfl, rfl, rfl⟩⟩
  | havelenLast c => exact ⟨_, rfl, rfl, decodeBytes_of_selectedBy (q := .haveLen) ⟨rfl, rfl, rfl⟩⟩
  | reset | nop => exact ⟨_, rfl, rfl, by decide⟩
  | ckClear | ckStep _ | ckValue => nomatch h

/-- R56: a micro-operation has no word. -/
theorem encode_of_isMicroOp {i : Instr} (h : i.isMicroOp = true) : encode i = none := by
  cases i with
  | ckClear | ckStep _ | ckValue => rfl
  | _ => nomatch h

/-- R56: nor does a word decode to one. -/
theorem isMicroOp_of_decodeBytes {w : List Byte} {i : Instr} (h : decodeBytes w = .ok i) : i.isMicroOp = false := by
  obtain ⟨p, -, hd⟩ := decodeBytes_iff.mp h
  exact isMicroOp_of_decode hd

/-- Settles O10: the word's fields select the instruction again, and the decoder gives no micro-operation. -/
theorem decodeOfEncodeGivesTheInstruction : Obligations.DecodeOfEncodeGivesTheInstruction := by
  unfold Obligations.DecodeOfEncodeGivesTheInstruction
  intro i wf
  refine ⟨fun hi => ?word, fun hi => ⟨encode_of_isMicroOp hi, fun w hw => ?none⟩⟩
  case word =>
    obtain ⟨w, hencode, -, hdecode⟩ := decodeBytes_encode wf hi
    exact ⟨w, hencode, hdecode⟩
  case none => exact absurd (hi.symm.trans (isMicroOp_of_decodeBytes hw)) (by decide)

/-- R55: whatever a selection decodes to meets the condition on its byte. -/
theorem wellFormed_of_decode {p : Selection} {i : Instr} (h : decode p = .ok i) : i.wellFormed = true := by
  obtain ⟨-, rfl⟩ | ⟨-, -, rfl⟩ | ⟨-, -, hs⟩ := decode_iff.mp h
  · rfl
  · rfl
  · exact hs.wellFormed.1

/-- Settles O11: the decoder gives well-formed instructions with words, and every word has four bytes. -/
theorem decodedInstructionsAreWellFormed : Obligations.DecodedInstructionsAreWellFormed := by
  unfold Obligations.DecodedInstructionsAreWellFormed
  intro w i h
  obtain ⟨p, hp, hd⟩ := decodeBytes_iff.mp h
  have wf := wellFormed_of_decode hd
  obtain ⟨v, hencode, four, hdecode⟩ := decodeBytes_encode wf (isMicroOp_of_decode hd)
  exact ⟨wf, v, hencode, four.trans (length_of_selectionOfBytes hp).symm, hdecode⟩

/-- R55 leaves only HaveLen with `bytes_needed = 0` without a transition. -/
theorem decodeByte_error {q : SyncState} {n c : Byte} {e : DecodeError} (h : decodeByte q n c = .error e) :
    q = .haveLen ∧ n = 0 := by
  cases q with
  | haveLen =>
    simp only [decodeByte] at h
    split_ifs at h
    exact ⟨rfl, by bv_omega⟩
  | start2 => nomatch h
  | idle | start1 | haveId =>
    simp only [decodeByte] at h
    split_ifs at h

/-- The mask `0xFF` keeps the whole byte. -/
theorem and_fullMask (c : Byte) : c &&& 255#8 = c := BitVec.and_allOnes

/-- R55: the one row of the machine-readable table that the rule on mask, match, negate and guard selects is the row of
the selected transition. -/
theorem selectedRows_of_selectedBy {i : Instr} {q : SyncState} {n c : Byte} (hs : SelectedBy i q n c) :
    (transitionTable.filter fun r => r.selected q n c).map TableRow.mnemonic = [i.mnemonic] := by
  cases i with
  | idleSync d | start1Sync d | haveidLen0 d =>
    obtain ⟨-, rfl, rfl⟩ := hs
    rfl
  | idleSkip d | start1Fall d =>
    obtain ⟨-, rfl, other⟩ := hs
    have other : c ≠ 255#8 := other
    simp [transitionTable, TableRow.selected, Guard.holds, and_fullMask, other, Instr.mnemonic]
  | haveidLen d =>
    obtain ⟨-, rfl, other⟩ := hs
    have other : c ≠ 0#8 := other
    simp [transitionTable, TableRow.selected, Guard.holds, and_fullMask, other, Instr.mnemonic]
  | start2Id d =>
    obtain ⟨-, rfl⟩ := hs
    simp [transitionTable, TableRow.selected, Guard.holds, Instr.mnemonic]
  | havelenData d =>
    obtain ⟨-, rfl, hn⟩ := hs
    have above2 : 2#8 < n := hn
    have not2 : n ≠ 2#8 := by bv_omega
    have not1 : n ≠ 1#8 := by bv_omega
    simp [transitionTable, TableRow.selected, Guard.holds, above2, not2, not1, Instr.mnemonic]
  | havelenCklo d | havelenLast d =>
    obtain ⟨-, rfl, rfl⟩ := hs
    simp [transitionTable, TableRow.selected, Guard.holds, Instr.mnemonic]
  | reset | nop | ckClear | ckStep _ | ckValue => exact hs.elim

/-- Settles O8: the decoder's rows are those of `SelectedBy`, and its one error is the unreachable case, where no guard
of HaveLen holds. -/
theorem exactlyOneTableRowIsSelected : Obligations.ExactlyOneTableRowIsSelected := by
  unfold Obligations.ExactlyOneTableRowIsSelected
  intro q n c
  refine ⟨⟨rfl, fun hc => ?idleSkip, rfl, fun hc => ?start1Fall, rfl, fun hc => ?haveidLen, rfl, fun hn => ?havelenData,
    rfl, rfl⟩, fun reachable => ?selected, fun hq hn => ?unreachable⟩
  case idleSkip => exact decodeByte_iff.mpr ⟨rfl, rfl, hc⟩
  case start1Fall => exact decodeByte_iff.mpr ⟨rfl, rfl, hc⟩
  case haveidLen => exact decodeByte_iff.mpr ⟨rfl, rfl, hc⟩
  case havelenData => exact decodeByte_iff.mpr ⟨rfl, rfl, hn⟩
  case selected =>
    cases hd : decodeByte q n c with
    | ok i =>
      have hs := decodeByte_iff.mp hd
      exact ⟨i, rfl, hs.wellFormed.1, selectedRows_of_selectedBy hs⟩
    | error e => exact absurd (decodeByte_error hd) reachable
  case unreachable =>
    subst hq hn
    exact ⟨rfl, by simp [transitionTable, TableRow.selected, Guard.holds]⟩

/-- Settles O7: the words are literal. -/
theorem sampleWordsDecode : Obligations.SampleWordsDecode := by
  unfold Obligations.SampleWordsDecode
  decide

/-- Settles O3: the step decodes `State.selection`, which is the next sample with the two registers. -/
theorem stepRunsTheDecodedInstruction : Obligations.StepRunsTheDecodedInstruction := by
  unfold Obligations.StepRunsTheDecodedInstruction
  exact fun _ _ => step_of_decode

/-- R55: outside HaveLen the counter selects nothing. -/
theorem decode_of_ne_haveLen {q : SyncState} (hq : q ≠ .haveLen) (x : CycleIn) (n m : Byte) :
    decode { ports := x, state := q, bytesNeeded := n } = decode { ports := x, state := q, bytesNeeded := m } := by
  cases q with
  | haveLen => exact absurd rfl hq
  | _ => rfl

/-- A presented selection is decoded next, although its counter is kept in HaveLen only (R13). -/
theorem decode_present (s : State) (p : Selection) : decode (s.present p).selection = decode p := by
  by_cases hq : p.state = .haveLen
  · have counter : (s.present p).bytesNeeded = p.bytesNeeded := if_pos hq
    rw [State.selection, counter]
    rfl
  · exact decode_of_ne_haveLen hq p.ports _ p.bytesNeeded

/-- Settles O4: the word's selection is the one presented, and taking its sample leaves the queue there was before. -/
theorem fetchWordIsRunNext : Obligations.FetchWordIsRunNext := by
  unfold Obligations.FetchWordIsRunNext
  intro s nbits w i h
  have hword : decodeBytes (tableWordBytes nbits w) = .ok i := by
    unfold decodeTableWord at h
    split at h <;> cases h
    assumption
  obtain ⟨p, hp, hd⟩ := decodeBytes_iff.mp hword
  have presented : s.withFetchWord nbits w = s.present p := by
    rw [State.withFetchWord, hp]
  rw [presented]
  exact step_of_decode ((decode_present s p).trans hd)

end Sys2Proof.Proofs

namespace Sys2Proof.Proofs
open Sys2Proof Sys2Proof.Machine

/-! ## The windows after a completed frame (`70_reset_and_hazards.md`, R134, R135, R140) -/

/-- R134: how many bytes can be accepted before one is stored at address `i`: the rest of a header and the payload bytes
below it, or none where the payload is past it. -/
def bytesBeforeStore (i : Nat) (s : State) : Nat :=
  match s.state with
  | .idle    => 4 + i
  | .start1  => 3 + i
  | .start2  => 2 + i
  | .haveId  => 1 + i
  | .haveLen => i - s.payloadIndex.toNat

/-- No state is further from a store at `i` than Idle. -/
theorem bytesBeforeStore_le (i : Nat) (s : State) : bytesBeforeStore i s ≤ 4 + i := by
  unfold bytesBeforeStore
  split <;> omega

/-- Every byte comes at most one byte nearer to a store: it moves on in the header or in the payload, or back to Idle,
which is furthest from any. -/
theorem bytesBeforeStore_of_effect {i : Nat} {j : Instr} {s t : State} {c : Byte} (hinv : Inv s)
    (hs : SelectedBy j s.state s.bytesNeeded c) (he : Effect j s t) :
    bytesBeforeStore i s ≤ bytesBeforeStore i t + 1 := by
  have to_idle (idle : t.state = .idle) : bytesBeforeStore i s ≤ bytesBeforeStore i t + 1 := by
    have far := bytesBeforeStore_le i s
    simp only [bytesBeforeStore, idle]
    exact far.trans (Nat.le_succ _)
  cases j with
  | idleSkip d | start1Fall d | haveidLen0 d =>
    cases he
    exact to_idle rfl
  | havelenLast d =>
    obtain ⟨-, rfl⟩ := he
    exact to_idle rfl
  | idleSync d | start1Sync d =>
    obtain ⟨-, hq, -⟩ := hs
    cases he
    simp only [bytesBeforeStore, hq, State.goto_state]
    omega
  | start2Id d =>
    obtain ⟨-, hq⟩ := hs
    cases he
    simp only [bytesBeforeStore, hq, State.goto_state]
    omega
  | haveidLen d =>
    obtain ⟨-, hq, -⟩ := hs
    have first : t.payloadIndex = 0 := by
      cases he
      exact BitVec.sub_self d
    have in_payload : t.state = .haveLen := by
      cases he
      rfl
    simp only [bytesBeforeStore, hq, in_payload, first]
    exact (Nat.add_comm 1 i).le
  | havelenData d | havelenCklo d =>
    obtain ⟨-, hq, hn⟩ := hs
    obtain ⟨-, le_len⟩ := hinv.needsSome hq
    have index : t.payloadIndex.toNat = s.payloadIndex.toNat + 1 := by
      refine payloadIndex_toNat_of_taken le_len (by rw [he.2]) ?_
      rw [he.2]
      bv_omega
    have in_payload : t.state = .haveLen := by
      rw [he.2]
      exact hq
    simp only [bytesBeforeStore, hq, in_payload, index]
    omega
  | reset | nop | ckClear | ckStep _ | ckValue => exact hs.elim

/-- A byte that is not the one stored at `i` leaves the buffer byte there. -/
theorem byteAt_of_effect {i : Nat} {j : Instr} {s t : State} {c : Byte} (early : 0 < bytesBeforeStore i s)
    (hs : SelectedBy j s.state s.bytesNeeded c) (he : Effect j s t) :
    Memory.byteAt t.buf i = Memory.byteAt s.buf i := by
  by_cases hq : s.state = .haveLen
  · obtain ⟨-, hbuf⟩ := effect_buf_of_haveLen (hq ▸ hs) he
    have below : i ≠ s.payloadIndex.toNat := by
      simp only [bytesBeforeStore, hq] at early
      omega
    rw [hbuf, Memory.byteAt_put, if_neg below]
  · rw [effect_buf_of_ne_haveLen hq hs he]

/-- So a run that ends before a byte can be stored at `i` leaves the buffer byte there. -/
theorem byteAt_of_feed {i : Nat} {s : State} {w : List Byte} (hinv : Inv s) (early : w.length ≤ bytesBeforeStore i s) :
    ∃ t es, feed w s = .next (t, es) ∧ Memory.byteAt t.buf i = Memory.byteAt s.buf i := by
  induction w generalizing s with
  | nil => exact ⟨s, [], feed_nil s, rfl⟩
  | cons c w ih =>
    rw [List.length_cons] at early
    obtain ⟨j, hs⟩ := exists_selectedBy hinv c
    obtain ⟨t, hcycle, he, hinvt⟩ := exists_cycle_of_selectedBy hinv hs
    have nearer := bytesBeforeStore_of_effect (i := i) hinv hs he
    obtain ⟨u, es, hfeed, kept⟩ := ih hinvt (by omega)
    exact ⟨u, _, feed_cons hcycle hfeed, kept.trans (byteAt_of_effect (by omega) hs he)⟩

/-- Settles O51: from Idle a byte is stored at address `i` after `4 + i` others at the earliest. -/
theorem bufferBytesOutliveTheNextHeader : Obligations.BufferBytesOutliveTheNextHeader := by
  unfold Obligations.BufferBytesOutliveTheNextHeader
  intro s w i hinv hq _ short
  have early : w.length ≤ bytesBeforeStore i s := by simpa only [bytesBeforeStore, hq] using short
  exact byteAt_of_feed hinv early

/-- R135: how many bytes can be accepted before one is taken for a length; the last of them may be taken for an
identifier. -/
def bytesBeforeLength (s : State) : Nat :=
  match s.state with
  | .idle    => 3
  | .start1  => 2
  | .start2  => 1
  | .haveId  => 0
  | .haveLen => 0

/-- Before the length byte no event is reported, length and status stay, and identifier and accumulators stay up to
the identifier; and a byte comes at most one byte nearer to the length. -/
theorem header_kept_of_effect {i : Instr} {s t : State} {c : Byte} (early : 0 < bytesBeforeLength s)
    (hs : SelectedBy i s.state s.bytesNeeded c) (he : Effect i s t) :
    bytesBeforeLength s ≤ bytesBeforeLength t + 1 ∧ t.event = none ∧ t.msgLen = s.msgLen ∧
      t.frameStatus = s.frameStatus ∧
      (1 < bytesBeforeLength s → t.msgId = s.msgId ∧ t.ckA = s.ckA ∧ t.ckB = s.ckB) := by
  cases i with
  | idleSync d | idleSkip d | start1Sync d | start1Fall d =>
    obtain ⟨-, hq, -⟩ := hs
    cases he
    exact ⟨by simp [bytesBeforeLength, hq], State.event_none rfl, rfl, rfl, fun _ => ⟨rfl, rfl, rfl⟩⟩
  | start2Id d =>
    obtain ⟨-, hq⟩ := hs
    cases he
    exact ⟨by simp [bytesBeforeLength, hq], State.event_none rfl, rfl, rfl, by simp [bytesBeforeLength, hq]⟩
  | haveidLen d | haveidLen0 d | havelenData d | havelenCklo d | havelenLast d =>
    obtain ⟨-, hq, -⟩ := hs
    simp [bytesBeforeLength, hq] at early
  | reset | nop | ckClear | ckStep _ | ckValue => exact hs.elim

/-- So along a run that ends before the length byte. -/
theorem feed_before_length {s : State} {w : List Byte} (hinv : Inv s) (early : w.length ≤ bytesBeforeLength s) :
    ∃ t, feed w s = .next (t, []) ∧ t.msgLen = s.msgLen ∧ t.frameStatus = s.frameStatus ∧
      (w.length < bytesBeforeLength s → t.msgId = s.msgId ∧ t.ckA = s.ckA ∧ t.ckB = s.ckB) := by
  induction w generalizing s with
  | nil => exact ⟨s, feed_nil s, rfl, rfl, fun _ => ⟨rfl, rfl, rfl⟩⟩
  | cons c w ih =>
    rw [List.length_cons] at early
    obtain ⟨i, hs⟩ := exists_selectedBy hinv c
    obtain ⟨t, hcycle, he, hinvt⟩ := exists_cycle_of_selectedBy hinv hs
    obtain ⟨nearer, quiet, len_eq, status_eq, id_ck⟩ := header_kept_of_effect (by omega) hs he
    obtain ⟨u, hfeed, len_eq', status_eq', id_ck'⟩ := ih hinvt (by omega)
    refine ⟨u, by simpa [quiet] using feed_cons hcycle hfeed, len_eq'.trans len_eq, status_eq'.trans status_eq,
      fun earlier => ?_⟩
    rw [List.length_cons] at earlier
    obtain ⟨id_eq, a_eq, b_eq⟩ := id_ck (by omega)
    obtain ⟨id_eq', a_eq', b_eq'⟩ := id_ck' (by omega)
    exact ⟨id_eq'.trans id_eq, a_eq'.trans a_eq, b_eq'.trans b_eq⟩

/-- Settles O52: from Idle the length byte is the fourth at the earliest, and the identifier the third. -/
theorem headerRegistersOutliveTheSyncWord : Obligations.HeaderRegistersOutliveTheSyncWord := by
  unfold Obligations.HeaderRegistersOutliveTheSyncWord
  intro s w hinv hq short
  have three : bytesBeforeLength s = 3 := by simp only [bytesBeforeLength, hq]
  obtain ⟨t, hfeed, len_eq, status_eq, id_ck⟩ := feed_before_length hinv (three ▸ short)
  exact ⟨t, hfeed, len_eq, status_eq, fun two => id_ck (three ▸ Nat.lt_succ_of_le two)⟩

/-- Settles O50: the stray byte and the first sync byte are the sync word, the second one the identifier, and the
identifier a length other than 0. -/
theorem straySyncByteMisframes : Obligations.StraySyncByteMisframes := by
  unfold Obligations.StraySyncByteMisframes
  intro s id app hinv hq hid
  obtain ⟨a, hheader, hinva, hqa, id_eq⟩ := feed_sync_id hinv hq Config.syncByte
  obtain ⟨t, hcycle, quiet, ht⟩ := cycle_haveidLen hinva hqa hid
  have length_byte : feed [id] a = .next (t, []) := by simpa [quiet] using feed_singleton hcycle
  have counter : t.bytesNeeded = id := BitVec.eq_of_toNat_eq ((Nat.zero_add _).symm.trans ht.needs)
  exact ⟨t, feed_append_quiet hheader length_byte, ht.state_eq, ht.id_eq.trans id_eq, ht.len_eq, counter⟩

/-! ## Where events are reported (R108) -/

/-- Only HAVEID.LEN0 and HAVELEN.LAST leave `frame_done` at 1 after a cycle. -/
theorem completing_of_frameDone {x : CycleIn} {s t : State} (h : cycle x s = .next t) (done : t.frameDone = true) :
    x.rst = false ∧ x.inValid = true ∧
      ((s.state = .haveId ∧ x.inData = 0 ∧ Effect (.haveidLen0 x.inData) s t) ∨
       (s.state = .haveLen ∧ s.bytesNeeded = 1 ∧ Effect (.havelenLast x.inData) s t)) := by
  obtain ⟨-, rfl⟩ | ⟨-, -, rfl⟩ | ⟨hr, hv, i, hs, he⟩ := cycle_cases h
  · nomatch done
  · nomatch done
  · refine ⟨hr, hv, ?_⟩
    cases i with
    | haveidLen0 d =>
      obtain ⟨rfl, hq, hc⟩ := hs
      exact .inl ⟨hq, hc, he⟩
    | havelenLast d =>
      obtain ⟨rfl, hq, hn⟩ := hs
      exact .inr ⟨hq, hn, he⟩
    | idleSync d | idleSkip d | start1Sync d | start1Fall d | start2Id d | haveidLen d =>
      cases he
      nomatch done
    | havelenData d | havelenCklo d =>
      obtain ⟨-, rfl⟩ := he
      nomatch done
    | reset | nop | ckClear | ckStep _ | ckValue => exact hs.elim

/-- An event needs the pulse (R15). -/
theorem frameDone_of_event {s : State} (h : s.event ≠ none) : s.frameDone = true :=
  Bool.eq_true_of_not_eq_false fun idle => h (State.event_none idle)

/-- R82, R86: an event that tells of a good frame, or of a length error, has the length that goes with it. -/
def LengthFits (e : Event) : Prop :=
  match e with
  | .frameOk _ len _           => 2 ≤ len
  | .checksumMismatch _ len .. => 2 ≤ len
  | .lengthError _ len         => len < 2

/-- R117: HAVELEN.LAST tests the length first, so the event that it reports has the length that goes with it. -/
theorem lengthFits_of_havelenLast {s t : State} {c : Byte} {e : Event} (he : Effect (.havelenLast c) s t)
    (hn : s.bytesNeeded = 1) (h : t.event = some e) : LengthFits e := by
  by_cases short : s.msgLen < 2
  · cases (event_of_havelenLast_short he short).symm.trans h
    exact short
  · have room : 2 ≤ s.msgLen := BitVec.not_lt.mp short
    by_cases equal : le16 (Memory.byteAt s.buf (s.msgLen - 2).toNat) c = s.calcCk
    · cases (event_of_havelenLast_ok he hn room equal).symm.trans h
      exact room
    · cases (event_of_havelenLast_ckErr he hn room equal).symm.trans h
      exact room

/-- So does the event of every cycle. -/
theorem lengthFits_of_cycle {x : CycleIn} {s t : State} {e : Event} (hcycle : cycle x s = .next t)
    (h : t.event = some e) : LengthFits e := by
  obtain ⟨-, -, ⟨-, -, he⟩ | ⟨-, hn, he⟩⟩ := completing_of_frameDone hcycle (frameDone_of_event (by simp [h]))
  · cases (event_of_haveidLen0 he).symm.trans h
    exact (by decide : (0 : Byte) < 2)
  · exact lengthFits_of_havelenLast he hn h

/-- Before the header's length byte a cycle without reset reports nothing and leaves the status. -/
theorem quiet_before_length {x : CycleIn} {s t : State} (hcycle : cycle x s = .next t)
    (early : 0 < bytesBeforeLength s) (no_reset : x.rst = false) : t.event = none ∧ t.frameStatus = s.frameStatus := by
  obtain ⟨hr, -⟩ | ⟨-, -, rfl⟩ | ⟨-, -, i, hs, he⟩ := cycle_cases hcycle
  · simp [no_reset] at hr
  · exact ⟨State.event_none rfl, rfl⟩
  · obtain ⟨-, quiet, -, status_eq, -⟩ := header_kept_of_effect early hs he
    exact ⟨quiet, status_eq⟩

/-- Settles O42: an event needs one of the two completing transitions, which test the length. -/
theorem onlyCompletingStepsReport : Obligations.OnlyCompletingStepsReport := by
  unfold Obligations.OnlyCompletingStepsReport
  intro s t x _ hcycle
  refine ⟨fun reported => ?completing, fun _ _ _ => lengthFits_of_cycle hcycle, fun _ _ => lengthFits_of_cycle hcycle,
    fun hq no_reset => quiet_before_length hcycle ?early no_reset⟩
  case completing =>
    obtain ⟨hr, hv, ⟨hq, hc, -⟩ | ⟨hq, hn, -⟩⟩ := completing_of_frameDone hcycle (frameDone_of_event reported)
    · exact ⟨hr, hv, .inr ⟨hq, hc⟩⟩
    · exact ⟨hr, hv, .inl ⟨hq, hn⟩⟩
  case early => obtain hq | hq | hq := hq <;> simp [bytesBeforeLength, hq]

end Sys2Proof.Proofs

namespace Sys2Proof.Proofs
open Sys2Proof Sys2Proof.Machine

/-! ## What an instruction leaves unchanged (R25, R30, R37) -/

/-- R30: the three HAVELEN transitions store at the payload index, so a read at another address is as before. -/
theorem load?_of_havelen {i : Instr} {s t : State} {c a : Byte}
    (hi : i ∈ [Instr.havelenData c, .havelenCklo c, .havelenLast c]) (he : Effect i s t) (ha : a ≠ s.payloadIndex) :
    Memory.load? t.buf a = Memory.load? s.buf a := by
  have stored : s.payloadIndex ≠ 255#8 ∧ t.buf = Memory.put s.buf s.payloadIndex.toNat c := by
    simp only [List.mem_cons, List.not_mem_nil, or_false] at hi
    obtain rfl | rfl | rfl := hi <;> exact ⟨he.1, by rw [he.2]⟩
  rw [stored.2, Memory.load?_put stored.1, if_neg ha]

/-- R74 to R77: the sync detector's transitions write the state and the pulse. -/
theorem frame_of_sync_detector {i : Instr} {s t : State} {c : Byte}
    (hi : i ∈ [Instr.idleSync c, .idleSkip c, .start1Sync c, .start1Fall c]) (he : Effect i s t) :
    t = { s with state := t.state, frameDone := false } := by
  simp only [List.mem_cons, List.not_mem_nil, or_false] at hi
  obtain rfl | rfl | rfl | rfl := hi <;> cases he <;> rfl

/-- R64, R65: the writing micro-operations write the accumulators. -/
theorem frame_of_ck_write {i : Instr} {s t : State} {c : Byte} (hi : i ∈ [Instr.ckClear, .ckStep c])
    (he : Effect i s t) : t = { s with ckA := t.ckA, ckB := t.ckB } := by
  simp only [List.mem_cons, List.not_mem_nil, or_false] at hi
  obtain rfl | rfl := hi <;> cases he <;> rfl

/-- Settles O24: each instruction's next state is its effect, an update of the registers in its write column. -/
theorem instructionsWriteOnlyTheirRegisters : Obligations.InstructionsWriteOnlyTheirRegisters := by
  unfold Obligations.InstructionsWriteOnlyTheirRegisters
  intro s t c
  simp only [exec_next_iff]
  refine ⟨fun _ => frame_of_sync_detector, ?start2Id, ?haveidLen, ?haveidLen0, ?havelenData, ?havelenCklo, ?havelenLast,
    fun _ hi he _ => load?_of_havelen hi he, ?nop, ?reset, fun _ => frame_of_ck_write, ?ckValue⟩
  case start2Id | haveidLen | haveidLen0 | nop | ckValue =>
    intro he
    cases he
    rfl
  case havelenData | havelenCklo | havelenLast =>
    rintro ⟨-, rfl⟩
    rfl
  case reset =>
    intro he
    cases he
    exact ⟨rfl, rfl⟩

/-- No instruction touches the queue of samples. -/
theorem inputs_of_effect {i : Instr} {s t : State} (he : Effect i s t) : t.inputs = s.inputs := by
  cases i with
  | havelenData c | havelenCklo c | havelenLast c =>
    obtain ⟨-, rfl⟩ := he
    rfl
  | _ =>
    cases he
    rfl

/-- Settles O5: the step takes the sample off the queue, and its instruction leaves the rest. -/
theorem eachSampleIsConsumedOnce : Obligations.EachSampleIsConsumedOnce := by
  unfold Obligations.EachSampleIsConsumedOnce
  intro s t h
  obtain ⟨i, -, hexec⟩ := step_next h
  exact inputs_of_effect (exec_next_iff.mp hexec)

/-- Settles O19: the spec lemmas of the three transitions, at the address that does not exist and at the others. -/
theorem missingBufferAddressFaults : Obligations.MissingBufferAddressFaults := by
  unfold Obligations.MissingBufferAddressFaults
  intro s c i hi
  simp only [List.mem_cons, List.not_mem_nil, or_false] at hi
  obtain rfl | rfl | rfl := hi
  · exact ⟨fun missing => (execHavelen_fault c missing).1, fun addr_exists => ⟨_, execHavelenData_eq c addr_exists⟩⟩
  · exact ⟨fun missing => (execHavelen_fault c missing).2.1, fun addr_exists => ⟨_, execHavelenCklo_eq c addr_exists⟩⟩
  · exact ⟨fun missing => (execHavelen_fault c missing).2.2, fun addr_exists => ⟨_, execHavelenLast_eq c addr_exists⟩⟩

/-- Settles O21, by induction on the number of idle cycles: the first ends the pulse, and the others find it ended. -/
theorem idleCyclesOnlyEndThePulse : Obligations.IdleCyclesOnlyEndThePulse := by
  unfold Obligations.IdleCyclesOnlyEndThePulse
  refine fun s => ⟨exec_next_iff.mpr rfl, fun k => ?_⟩
  induction k generalizing s with
  | zero => exact run_cons (cycle_idle s) rfl
  | succ k ih => exact run_cons (cycle_idle s) (ih s.clearDone)

/-- Settles O6: each port is the register it shows; the read port shows the buffer where the address exists. -/
theorem outputPortsShowTheRegisters : Obligations.OutputPortsShowTheRegisters := by
  unfold Obligations.OutputPortsShowTheRegisters
  intro s
  refine ⟨rfl, rfl, rfl, fun room => if_pos room, fun short => if_neg (BitVec.not_le.mpr short),
    ckValueOf_eq_shiftLeft_or s.ckA s.ckB, ?missing, fun a ha => ?present⟩
  case missing => exact congrArg (Option.getD · 0) (Memory.load?_255 s.buf)
  case present => rw [State.rdData_of_ne ha, Memory.load?_of_ne ha]

end Sys2Proof.Proofs

namespace Sys2Proof.Proofs
open Sys2Proof Sys2Proof.Machine

/-! ## The buffer's canonical form (log entry 2) -/

/-- In canonical form the cells of the list are the cells that a read finds. -/
theorem mem_iff_cell? {m : Memory} (rising : m.Pairwise fun x y => x.1 < y.1) {a : Nat} {v : Byte} :
    (a, v) ∈ m ↔ Memory.cell? m a = some v := by
  induction m with
  | nil => simp
  | cons x m ih =>
    obtain ⟨b, w⟩ := x
    obtain ⟨above, later⟩ := List.pairwise_cons.mp rising
    rw [List.mem_cons, ih later, Memory.cell?_cons]
    by_cases hab : a = b
    · subst hab
      have not_later : Memory.cell? m a ≠ some v := fun h => Nat.lt_irrefl a (above _ ((ih later).mpr h))
      simp [not_later, eq_comm]
    · simp [hab]

/-- Two buffers in canonical form with the same cells are equal: a strictly rising list is known from its members. -/
theorem eq_of_cell?_eq {m m' : Memory} (wf : Memory.Wf m) (wf' : Memory.Wf m')
    (h : ∀ a, Memory.cell? m a = Memory.cell? m' a) : m = m' := by
  have : Std.Irrefl fun x y : Host.Cell => x.1 < y.1 := ⟨fun x => Nat.lt_irrefl x.1⟩
  have : Std.Antisymm fun x y : Host.Cell => x.1 < y.1 := ⟨fun _ _ hxy hyx => absurd hxy hyx.not_gt⟩
  refine wf.1.eq_of_mem_iff wf'.1 fun x => ?_
  rw [mem_iff_cell? wf.1, mem_iff_cell? wf'.1, h]

/-- A write that succeeds is at an address that exists, and answers the list with the cell put in. -/
theorem store?_eq_some {m m' : Memory} {a v : Byte} (h : Memory.store? m a v = some m') :
    a ≠ 255#8 ∧ m' = Memory.put m a.toNat v := by
  by_cases ha : a = 255#8
  · subst ha
    simp at h
  · rw [Memory.store?_of_ne ha] at h
    cases h
    exact ⟨ha, rfl⟩

/-- Settles O26: a successful write puts one cell in, and canonical lists are known from their cells. -/
theorem bufferReadAfterWrite : Obligations.BufferReadAfterWrite := by
  unfold Obligations.BufferReadAfterWrite
  refine ⟨fun m m' a v h => ?_, fun _ _ => eq_of_cell?_eq⟩
  obtain ⟨addr_exists, rfl⟩ := store?_eq_some h
  exact ⟨addr_exists, Memory.load?_put addr_exists v, fun wf => wf_put_of_ne wf addr_exists v⟩

/-! ## The laws of the checksum (R71) -/

/-- The sum of a sequence's bytes, as a number. -/
def byteSum (w : List Byte) : Nat := (w.map BitVec.toNat).sum

/-- The sum of a sequence's bytes, each as often as there are bytes from it on. -/
def weightedSum (w : List Byte) : Nat :=
  match w with
  | []     => 0
  | c :: w => (w.length + 1) * c.toNat + weightedSum w

/-- Law 2 of R71 counts from the front: byte `i` of `n` has the weight `n - i`. -/
theorem weightedSum_eq (w : List Byte) :
    weightedSum w = ((List.range w.length).map fun i => (w.length - i) * (w.getD i 0).toNat).sum := by
  induction w with
  | nil => rfl
  | cons c w ih =>
    rw [weightedSum, ih, List.length_cons, List.range_succ_eq_map, List.map_cons, List.sum_cons, List.map_map]
    refine congrArg _ (congrArg List.sum (List.map_congr_left fun i _ => ?_))
    simp

/-- Law 1 of R71, from any accumulators. -/
theorem ckFeed_fst_toNat (acc : Byte × Byte) (w : List Byte) :
    (ckFeed acc w).1.toNat = (acc.1.toNat + byteSum w) % 256 := by
  induction w generalizing acc with
  | nil => exact (Nat.mod_eq_of_lt acc.1.isLt).symm
  | cons c w ih =>
    rw [ckFeed_cons, ih, byteSum, byteSum, List.map_cons, List.sum_cons, ckStepOf, BitVec.toNat_add]
    omega

/-- Law 2 of R71, from any accumulators: `b` takes `a` once more with every byte. -/
theorem ckFeed_snd_toNat (acc : Byte × Byte) (w : List Byte) :
    (ckFeed acc w).2.toNat = (acc.2.toNat + w.length * acc.1.toNat + weightedSum w) % 256 := by
  induction w generalizing acc with
  | nil =>
    rw [List.length_nil, Nat.zero_mul]
    exact (Nat.mod_eq_of_lt acc.2.isLt).symm
  | cons c w ih =>
    rw [ckFeed_cons, ih, weightedSum, List.length_cons, ckStepOf, BitVec.toNat_add, BitVec.toNat_add]
    have new_a : (acc.1.toNat + c.toNat) % 256 ≡ acc.1.toNat + c.toNat [MOD 256] := Nat.mod_modEq _ _
    have new_b : (acc.2.toNat + (acc.1.toNat + c.toNat) % 256) % 256 ≡ acc.2.toNat + (acc.1.toNat + c.toNat) [MOD 256] :=
      (Nat.mod_modEq _ _).trans (new_a.add_left _)
    calc _ ≡ acc.2.toNat + (acc.1.toNat + c.toNat) + w.length * (acc.1.toNat + c.toNat) + weightedSum w [MOD 256] :=
          (new_b.add (new_a.mul_left _)).add_right _
      _ = acc.2.toNat + (w.length + 1) * acc.1.toNat + ((w.length + 1) * c.toNat + weightedSum w) := by ring

/-- Settles O28: the two laws, from accumulators at zero. -/
theorem accumulatorsAreTheTwoSums : Obligations.AccumulatorsAreTheTwoSums := by
  unfold Obligations.AccumulatorsAreTheTwoSums
  intro w
  constructor
  · simp [ckFeed_fst_toNat, byteSum]
  · simp [ckFeed_snd_toNat, weightedSum_eq]

/-- Settles O29: `a` is the sum of the bytes, in which two bytes that differ make a difference modulo 256. -/
theorem oneChangedByteIsDetected : Obligations.OneChangedByteIsDetected := by
  unfold Obligations.OneChangedByteIsDetected
  intro p q x y different same
  obtain ⟨same_a, -⟩ := ckValueOf_inj same
  have sums := congrArg BitVec.toNat same_a
  simp only [ckFeed_fst_toNat, byteSum, List.map_append, List.map_cons, List.sum_append, List.sum_cons] at sums
  exact different (BitVec.eq_of_toNat_eq (by bv_omega))

end Sys2Proof.Proofs
